-- ==== Sys2Proof/Word.lean ====
section
/-! DEFINITION. The words of the hardware (00_scope.md R9 to R11): bytes, lanes, command words, and the 25 lanes. -/

namespace Sys2Proof

/-- A byte, 0..255 (R9); bit 0 is the least significant (R11). -/
abbrev Byte := BitVec 8

/-- A lane, 64 bits, unsigned (R9); bit `z` has weight `2^z` (R10). -/
abbrev Lane := BitVec 64

/-- A command word, `cw[15:0]`, one value and not a byte pair (R11, 30_encoding.md R70). -/
abbrev CmdWord := BitVec 16

/-- The permutation state `A`: 25 lanes, lane index `x + 5*y` (10_state.md R21). -/
abbrev Lanes := Vector Lane 25

/-- `DIGEST`: 32 bytes (10_state.md R29). -/
abbrev DigestBytes := Vector Byte 32

end Sys2Proof
end

