-- ==== Sys2Proof/Config.lean ====
section
/-! DEFINITION. What is fixed for the machine: the two read-only tables and the padding bytes. The widths and counts of
00_scope.md R7 (64-bit lanes, 25 lanes, 24 rounds, rate 136 bytes, digest 32 bytes) are constants of this hardware and
stand in the types and as numerals, as they do in the spec's pseudocode. There is no free value: no rule leaves a result
open. -/

namespace Sys2Proof

/-- A row of the table that R24 prints: the round constants of `r`, `r + 8` and `r + 16`. -/
structure Config.RcRow where
  first  : Lane
  second : Lane
  third  : Lane
  deriving DecidableEq, Repr

/-- The table of R24 as it is printed, the row of `r = 0` first (log entry 5). -/
def Config.rcRows : List Config.RcRow :=
  [⟨0x0000000000000001, 0x000000000000008A, 0x8000000000008002⟩,
   ⟨0x0000000000008082, 0x0000000000000088, 0x8000000000000080⟩,
   ⟨0x800000000000808A, 0x0000000080008009, 0x000000000000800A⟩,
   ⟨0x8000000080008000, 0x000000008000000A, 0x800000008000000A⟩,
   ⟨0x000000000000808B, 0x000000008000808B, 0x8000000080008081⟩,
   ⟨0x0000000080000001, 0x800000000000008B, 0x8000000000008080⟩,
   ⟨0x8000000080008081, 0x8000000000008089, 0x0000000080000001⟩,
   ⟨0x8000000000008009, 0x8000000000008003, 0x8000000080008008⟩]

/-- `RC`, the 24 round constants: the printed columns one after the other (10_state.md R24). Read by IOTA only, written by
nothing. -/
def Config.rc : Vector Lane 24 :=
  ⟨(rcRows.map (·.first) ++ rcRows.map (·.second) ++ rcRows.map (·.third)).toArray, rfl⟩

/-- `ROT`, the 25 rotation offsets by lane index (10_state.md R25, log entry 5). Read by RHO only, written by nothing. -/
def Config.rot : Vector Nat 25 :=
  #v[0, 1, 62, 28, 27,
     36, 44, 6, 55, 20,
     3, 10, 43, 25, 39,
     41, 45, 15, 21, 8,
     18, 2, 61, 56, 14]

/-- `DS`, the first padding byte: original Keccak, not the NIST 0x06 (00_scope.md R2, R7). -/
abbrev Config.ds : Byte := 0x01

/-- `PADEND`, the bit set in the last padding byte (00_scope.md R7). -/
abbrev Config.padEnd : Byte := 0x80

end Sys2Proof
end

