-- ==== Sys2Proof/Syntax.lean ====
section
/-! DEFINITION. The sixteen commands and operations of 30_encoding.md R74, with the blocks, formats and ports they belong
to. -/

namespace Sys2Proof

/-- The three nested blocks (00_scope.md R1); the numbers of 30_encoding.md R71 are in `Block.number`. -/
inductive Block where
  /-- sha3_keccak_engine -/
  | eng
  /-- sponge_absorb_squeeze_unit -/
  | spg
  /-- keccak_f1600_permutation_core -/
  | prm
  deriving DecidableEq, Repr

/-- The three formats, which differ only in what `imm8` means (30_encoding.md R72). -/
inductive Format where
  /-- `imm8` unused, exactly 0x00 -/
  | z
  /-- `imm8` is a data byte -/
  | b
  /-- `imm8` is a round index, 0 to 23 -/
  | r
  deriving DecidableEq, Repr

/-- Where a word can be handed over (30_encoding.md R75): the external command port `CMD`, or one of the two internal
operation buses, which no host reaches. -/
inductive Port where
  /-- the external command port -/
  | cmd
  /-- the bus on which the engine asks the sponge unit -/
  | spgBus
  /-- the bus on which the sponge unit asks the permutation core -/
  | prmBus
  deriving DecidableEq, Repr

/-- One constructor per row of the opcode map (30_encoding.md R74). The operand of `iota` and `round` is the field
`imm8` as encoded; `Instr.wf` says it is 0 to 23. -/
inductive Instr where
  | init
  | updb (b : Byte)
  | updz
  | final
  | clrst
  | putb (b : Byte)
  | padblk
  | absorb
  | squeeze
  | theta
  | rho
  | pi
  | chi
  | iota (r : Byte)
  | round (r : Byte)
  | permute
  deriving DecidableEq, Repr

/-- The block that performs the operation (R74). -/
def Instr.block : Instr → Block
  | .init | .updb _ | .updz | .final => .eng
  | .clrst | .putb _ | .padblk | .absorb | .squeeze => .spg
  | .theta | .rho | .pi | .chi | .iota _ | .round _ | .permute => .prm

/-- The format of the row (R72, R74). -/
def Instr.format : Instr → Format
  | .init | .updz | .final | .clrst | .padblk | .absorb | .squeeze => .z
  | .theta | .rho | .pi | .chi | .permute => .z
  | .updb _ | .putb _ => .b
  | .iota _ | .round _ => .r

/-- The block whose words a port takes (R75). -/
def Port.block : Port → Block
  | .cmd => .eng
  | .spgBus => .spg
  | .prmBus => .prm

/-- The port on which a block's words travel (R75). -/
def Block.port : Block → Port
  | .eng => .cmd
  | .spg => .spgBus
  | .prm => .prmBus

end Sys2Proof
end

