-- ==== Sys2Proof/WellFormed.lean ====
section
/-! DEFINITION. Which terms of `Instr` stand for a word: the round index of IOTA and ROUND is 0 to 23 (30_encoding.md R72,
decision D24). Every other term does. -/

namespace Sys2Proof

/-- The check on an instruction: format R's operand is a legal round index (R72). -/
def Instr.wf : Instr → Bool
  | .iota r => decide (r.toNat ≤ 23)
  | .round r => decide (r.toNat ≤ 23)
  | .init | .updb _ | .updz | .final => true
  | .clrst | .putb _ | .padblk | .absorb | .squeeze => true
  | .theta | .rho | .pi | .chi | .permute => true

end Sys2Proof
end

