-- ==== Sys2Proof/Decode.lean ====
section
/-! DEFINITION. The decoder of 30_encoding.md R70 to R78, total on 16-bit words and reading no state (R77), and after it
the encoder, written from the match and mask columns of R74. -/

namespace Sys2Proof

/-- `blk = cw[15:12]` (R70). -/
def blkOf (w : CmdWord) : BitVec 4 := w.extractLsb' 12 4

/-- `fn = cw[11:8]` (R70). -/
def fnOf (w : CmdWord) : BitVec 4 := w.extractLsb' 8 4

/-- `imm8 = cw[7:0]`, unsigned (R70, R73). -/
def imm8Of (w : CmdWord) : Byte := w.extractLsb' 0 8

/-- Why a word is reserved: the clauses of R78. -/
inductive Reserved where
  /-- `blk` in 3..15 -/
  | noSuchBlock
  /-- `fn` above the block's last operation -/
  | noSuchFunction
  /-- a format-Z word with `imm8` not 0x00 -/
  | immNotZero
  /-- a format-R word with `imm8` in 24..255 -/
  | roundIndexTooLarge
  /-- a word of another block: at the external port every word with `blk` not 0 (R78); on an internal bus the model's
  choice, DESIGN CHOICE (log entry 15) -/
  | notOfThisPort
  deriving DecidableEq, Repr

/-- Format Z: `imm8` is exactly 0x00 (R72). -/
def formatZ (i : Instr) (imm : Byte) : Except Reserved Instr :=
  if imm = 0 then .ok i else .error .immNotZero

/-- Format R: `imm8` is a round index, 0 to 23 (R72). -/
def formatR (mk : Byte → Instr) (imm : Byte) : Except Reserved Instr :=
  if imm.toNat ≤ 23 then .ok (mk imm) else .error .roundIndexTooLarge

/-- The words of block 0, the engine (R74). -/
def decodeEng (fn : Nat) (imm : Byte) : Except Reserved Instr :=
  match fn with
  | 0 => formatZ .init imm
  | 1 => .ok (.updb imm)
  | 2 => formatZ .updz imm
  | 3 => formatZ .final imm
  | _ => .error .noSuchFunction

/-- The words of block 1, the sponge unit (R74). -/
def decodeSpg (fn : Nat) (imm : Byte) : Except Reserved Instr :=
  match fn with
  | 0 => formatZ .clrst imm
  | 1 => .ok (.putb imm)
  | 2 => formatZ .padblk imm
  | 3 => formatZ .absorb imm
  | 4 => formatZ .squeeze imm
  | _ => .error .noSuchFunction

/-- The words of block 2, the permutation core (R74). -/
def decodePrm (fn : Nat) (imm : Byte) : Except Reserved Instr :=
  match fn with
  | 0 => formatZ .theta imm
  | 1 => formatZ .rho imm
  | 2 => formatZ .pi imm
  | 3 => formatZ .chi imm
  | 4 => formatR .iota imm
  | 5 => formatR .round imm
  | 6 => formatZ .permute imm
  | _ => .error .noSuchFunction

/-- Decoding: one of the sixteen rows with its operand, or reserved (R77, R78). -/
def decode (w : CmdWord) : Except Reserved Instr :=
  match (blkOf w).toNat with
  | 0 => decodeEng (fnOf w).toNat (imm8Of w)
  | 1 => decodeSpg (fnOf w).toNat (imm8Of w)
  | 2 => decodePrm (fnOf w).toNat (imm8Of w)
  | _ => .error .noSuchBlock

/-- Decoding at a port. At the external port `CMD` only the engine's words are legal, and every other is reserved (R75, R78).
On an internal bus the spec does not say what a word of another block is: DESIGN CHOICE, it is refused as at `CMD`
(log entry 15). -/
def decodeAt (p : Port) (w : CmdWord) : Except Reserved Instr :=
  match decode w with
  | .ok i => if i.block = p.block then .ok i else .error .notOfThisPort
  | .error e => .error e

/-! ### The opcode map as data, and the encoder -/

/-- A row of R74: its match and mask columns and its format. -/
structure OpcodeRow where
  matchBits : CmdWord
  mask      : CmdWord
  format    : Format
  deriving DecidableEq, Repr

/-- The row an instruction belongs to (R74). -/
def Instr.row : Instr → OpcodeRow
  | .init    => ⟨0x0000, 0xFFFF, .z⟩
  | .updb _  => ⟨0x0100, 0xFF00, .b⟩
  | .updz    => ⟨0x0200, 0xFFFF, .z⟩
  | .final   => ⟨0x0300, 0xFFFF, .z⟩
  | .clrst   => ⟨0x1000, 0xFFFF, .z⟩
  | .putb _  => ⟨0x1100, 0xFF00, .b⟩
  | .padblk  => ⟨0x1200, 0xFFFF, .z⟩
  | .absorb  => ⟨0x1300, 0xFFFF, .z⟩
  | .squeeze => ⟨0x1400, 0xFFFF, .z⟩
  | .theta   => ⟨0x2000, 0xFFFF, .z⟩
  | .rho     => ⟨0x2100, 0xFFFF, .z⟩
  | .pi      => ⟨0x2200, 0xFFFF, .z⟩
  | .chi     => ⟨0x2300, 0xFFFF, .z⟩
  | .iota _  => ⟨0x2400, 0xFF00, .r⟩
  | .round _ => ⟨0x2500, 0xFF00, .r⟩
  | .permute => ⟨0x2600, 0xFFFF, .z⟩

/-- One instruction of each row, in the order of R74 (an operand, where the row has one, is 0). -/
def rowExamples : List Instr :=
  [.init, .updb 0, .updz, .final, .clrst, .putb 0, .padblk, .absorb, .squeeze,
   .theta, .rho, .pi, .chi, .iota 0, .round 0, .permute]

/-- The sixteen rows of R74. -/
def opcodeTable : List OpcodeRow := rowExamples.map Instr.row

/-- "A word `cw` selects a row when `cw AND mask = match` and, for the two format-R rows, `cw[7:0] <= 23`" (R74). -/
def OpcodeRow.selects (row : OpcodeRow) (w : CmdWord) : Bool :=
  decide (w &&& row.mask = row.matchBits) && (row.format != .r || decide ((imm8Of w).toNat ≤ 23))

/-- The immediate operand of an instruction (R72): the data byte, the round index, or 0x00. -/
def Instr.imm8 : Instr → Byte
  | .updb b | .putb b => b
  | .iota r | .round r => r
  | .init | .updz | .final | .clrst | .padblk | .absorb | .squeeze => 0
  | .theta | .rho | .pi | .chi | .permute => 0

/-- The word of an instruction: its row's match bits and its operand in `cw[7:0]` (R74). -/
def encode (i : Instr) : CmdWord := i.row.matchBits ||| i.imm8.setWidth 16

/-- What the decoder reads from a word given as the opcode table numbers its bits: the table's rows are one 16-bit word,
bit 0 least significant. A row of more than 16 bits does not exist here (log entry 13). -/
def decodeTableWord (nbits w : Nat) : Option Instr :=
  if nbits ≤ 16 then (decode (BitVec.ofNat 16 (w % 2 ^ nbits))).toOption else none

end Sys2Proof
end

