-- ==== Sys2Proof/Machine/State.lean ====
section
/-! DEFINITION. The state of one engine instance (10_state.md R20), with the model's own input and output beside it, and
the state after reset (10_state.md R40). -/

namespace Sys2Proof.Machine

/-- `PHASE`, the one flag, an explicit tagged state (10_state.md R28). -/
inductive Phase where
  | absorbing
  | finalized
  deriving DecidableEq, Repr

/-- What a host can do to an engine instance, row by row of 70_reset_and_hazards.md R180. A `word` on an internal bus is
no host's doing (30_encoding.md R75): it is the model exercising a block on its own (log entry 2). -/
inductive HostAction where
  /-- asserts reset while no command is in progress (R165) -/
  | reset
  /-- asserts reset while the command of word `w`, written to `CMD`, is in progress (R166) -/
  | resetDuring (w : CmdWord)
  /-- hands a word over at a port -/
  | word (p : Port) (w : CmdWord)
  /-- reads the register `STATUS` -/
  | readStatus
  /-- reads the register `RESP` -/
  | readResp
  /-- reads all 32 bytes of the register `DIGEST` -/
  | readDigest
  /-- reads some bytes of the register `DIGEST`, those of the indices `ks`, in that order (20_memory.md R56) -/
  | readDigestBytes (ks : List (Fin 32))
  deriving DecidableEq, Repr

/-- One engine instance. -/
structure State where
  /-- `A[0..24]` (R21). -/
  lanes    : Lanes
  /-- `RI`, the round index, 5 bits, scratch of PERMUTE (R33, log entry 4). -/
  ri       : BitVec 5
  /-- `BUF[0..BLEN]`: the bytes that hold a value; its length is `BLEN` (R26, R27, log entry 3). -/
  buf      : List Byte
  /-- `PHASE` (R28); `STATUS` is a view of it (R30). -/
  phase    : Phase
  /-- `DIGEST`, or no value (R29, log entry 9). -/
  digest   : Option DigestBytes
  /-- `RESP` (R31). -/
  resp     : Byte
  /-- The MODEL's own input: what the host does next, oldest first (log entry 1). -/
  pending  : List HostAction
  /-- The MODEL's own output: the bytes the last host read handed back (log entry 6). -/
  hostRead : List Byte
  deriving DecidableEq, Repr

/-- A fault of the machine. There is none: "Nothing in this hardware is treated as `fault` or `stuck` beyond the one
architected error" (93_implementation_defined.md), and that error, InvalidState, is a next state (60_exceptions.md R152). -/
inductive Fault where
  deriving DecidableEq, Repr

/-- Why a step has no meaning. Every one is SAFE: the model stops where the spec gives no effect. -/
inductive Refusal where
  /-- An instruction of the table that has no meaning in the model; raised by a refused arm of `exec` (there is none). -/
  | notModelled (mnemonic : String)
  /-- A reserved word at a port, with the clause of R78 (U1); raised by `takeAction`. -/
  | reservedWord (why : Reserved)
  /-- PUTB at `BLEN` above 135 (R113, U4); raised by `State.putByte`. -/
  | putbBufferFull
  /-- PADBLK at `BLEN` above 135 (R115, U4); raised by `State.padBlock`. -/
  | padblkBufferFull
  /-- ABSORB at `BLEN` other than 136 (R116, U4); raised by `State.absorbBlock`. -/
  | absorbBufferNotFull
  /-- IOTA or ROUND with a round index above 23, which no word encodes (R98, D24); raised by their meanings. -/
  | roundIndexReserved (r : Byte)
  /-- A read of `DIGEST` while it has no value (R29, R173, U2); raised by `State.readFromDigest`. -/
  | digestHasNoValue
  deriving DecidableEq, Repr

/-- What a step or an operation answers. -/
abbrev Result := Host.Outcome State Fault Refusal

/-- The state after reset (R40, R165): lanes zero, buffer empty, Absorbing, `DIGEST` without value, `RESP` 0x00. `ri`,
`pending` and `hostRead` are the model's choices (log entries 4, 1, 6). -/
def State.reset : State where
  lanes    := Vector.replicate 25 0
  ri       := 0
  buf      := []
  phase    := .absorbing
  digest   := none
  resp     := 0x00
  pending  := []
  hostRead := []

end Sys2Proof.Machine
end

