-- ==== Sys2Proof/Machine/Flags.lean ====
section
/-! DEFINITION. The one flag, PHASE (10_state.md R28), and the two status registers a host reads: STATUS (R30) and the
codes of RESP (R31). There are no condition codes (R28). -/

namespace Sys2Proof.Machine

/-- The encoding of `PHASE`: 0 Absorbing, 1 Finalized (R28). -/
def Phase.code : Phase → BitVec 1
  | .absorbing => 0
  | .finalized => 1

/-- `STATUS`: bit 0 is `PHASE`, bits 7 to 1 read as zero (R30). -/
def State.status (s : State) : Byte := s.phase.code.setWidth 8

/-- The response code `OK` (R31). -/
def respOk : Byte := 0x00

/-- The response code `InvalidState` (R31). -/
def respInvalidState : Byte := 0x01

end Sys2Proof.Machine
end

