-- ==== Sys2Proof/Machine/Bytes.lean ====
section
/-! DEFINITION. Byte order: the 8 bytes of a lane, little-endian (00_scope.md R14, 20_memory.md R52, R53). -/

namespace Sys2Proof.Machine

/-- `s[0] + 2^8*s[1] + 2^16*s[2] + ...`, exactly. -/
def leNat : List Byte → Nat
  | [] => 0
  | b :: bs => b.toNat + 256 * leNat bs

/-- `le64(s)` for a sequence of exactly 8 bytes (R14). -/
def le64 (s : List Byte) : Lane := BitVec.ofNat 64 (leNat s)

/-- Byte `j` of a lane: `v[8j+7:8j]` (R10). -/
def laneByte (v : Lane) (j : Nat) : Byte := v.extractLsb' (8 * j) 8

/-- `bytes_le64(v)`: byte 0 first (R14). -/
def bytesLe64 (v : Lane) : List Byte :=
  [laneByte v 0, laneByte v 1, laneByte v 2, laneByte v 3, laneByte v 4, laneByte v 5, laneByte v 6, laneByte v 7]

/-- `m[a..a+n]`: `n` bytes of a sequence from index `a` (R14). -/
def slice (m : List Byte) (a n : Nat) : List Byte := (m.drop a).take n

end Sys2Proof.Machine
end

