-- ==== Sys2Proof/Machine/Lanes.lean ====
section
/-! DEFINITION. Reading and building the 25 lanes, lane coordinates (00_scope.md R12) and rotation (R13). -/

namespace Sys2Proof.Machine

/-- Entry `i` of a list of lanes; 0 past its end, which no rule reaches (20_memory.md R51). -/
def laneOfList : List Lane → Nat → Lane
  | [], _ => 0
  | a :: _, 0 => a
  | _ :: as, i + 1 => laneOfList as i

/-- `A[i]`, i in 0..24 (R12). -/
def lane (A : Lanes) (i : Nat) : Lane := laneOfList A.toArray.toList i

/-- The lane index of coordinates, both taken modulo 5: `i = x + 5*y` (R12). -/
def laneIndex (x y : Nat) : Nat := x % 5 + 5 * (y % 5)

/-- `A[x,y]`, coordinates modulo 5 (R12). -/
def laneXY (A : Lanes) (x y : Nat) : Lane := lane A (laneIndex x y)

/-- The lanes whose entry `i` is `f i`: all 25 are computed before any is replaced, which is the snapshot of R15. -/
def tabulate (f : Nat → Lane) : Lanes :=
  #v[f 0, f 1, f 2, f 3, f 4, f 5, f 6, f 7, f 8, f 9, f 10, f 11, f 12,
     f 13, f 14, f 15, f 16, f 17, f 18, f 19, f 20, f 21, f 22, f 23, f 24]

/-- The lanes whose entry at `(x, y)` is `f x y`: lane `i` has `x = i mod 5` and `y = floor(i / 5)` (R12). -/
def tabulateXY (f : Nat → Nat → Lane) : Lanes := tabulate fun i => f (i % 5) (i / 5)

/-- 25 zero lanes. -/
def zeroLanes : Lanes := tabulate fun _ => 0

/-- `rotl(a, n)`, n in 0..63: bit z moves to bit `(z + n) mod 64` (R13). -/
def rotl (a : Lane) (n : Nat) : Lane := a.rotateLeft n

end Sys2Proof.Machine
end

