-- ==== Sys2Proof/Machine/Keccak.lean ====
section
/-! DEFINITION. What the operations of the permutation core and the sponge unit do to lanes and bytes, as functions:
40_permutation.md R92 to R100, 41_sponge.md R115 to R117. Every function reads the whole old value (a snapshot), so the
hazards of 70_reset_and_hazards.md R170 and R171 cannot arise. -/

namespace Sys2Proof.Machine

/-- `C[x]`, the parity of column x (R92). -/
def columnParity (A : Lanes) (x : Nat) : Lane :=
  laneXY A x 0 ^^^ laneXY A x 1 ^^^ laneXY A x 2 ^^^ laneXY A x 3 ^^^ laneXY A x 4

/-- `D[x] = C[(x+4) mod 5] XOR rotl(C[(x+1) mod 5], 1)` (R92). -/
def columnMix (A : Lanes) (x : Nat) : Lane := columnParity A (x + 4) ^^^ rotl (columnParity A (x + 1)) 1

/-- THETA (R92). -/
def thetaLanes (A : Lanes) : Lanes := tabulateXY fun x y => laneXY A x y ^^^ columnMix A x

/-- RHO (R93). -/
def rhoLanes (A : Lanes) : Lanes := tabulate fun i => rotl (lane A i) (Config.rot.toList.getD i 0)

/-- PI, by destination: `A[X,Y] <- S[(X + 3*Y) mod 5, X]` (R94; the corrected map of 90_conflicts.md C1). -/
def piLanes (A : Lanes) : Lanes := tabulateXY fun x y => laneXY A (x + 3 * y) x

/-- CHI (R96): the complemented lane is the next one in the row (R97). -/
def chiLanes (A : Lanes) : Lanes :=
  tabulateXY fun x y => laneXY A x y ^^^ (~~~ laneXY A (x + 1) y &&& laneXY A (x + 2) y)

/-- IOTA with index `r`: lane 0 only (R98). -/
def iotaLanes (r : Fin 24) (A : Lanes) : Lanes :=
  tabulate fun i => if i = 0 then lane A 0 ^^^ Config.rc[r] else lane A i

/-- ROUND with index `r`: the five steps in the order of R91 (R99). -/
def roundLanes (r : Fin 24) (A : Lanes) : Lanes := iotaLanes r (chiLanes (piLanes (rhoLanes (thetaLanes A))))

/-- The loop of PERMUTE (R100): while `RI < 24`, ROUND RI and `RI <- RI + 1`, with at most `fuel` turns. -/
def permuteLoop : Nat → Lanes → BitVec 5 → Lanes × BitVec 5
  | 0, A, ri => (A, ri)
  | fuel + 1, A, ri =>
    if h : ri.toNat < 24 then permuteLoop fuel (roundLanes ⟨ri.toNat, h⟩ A) (ri + 1) else (A, ri)

/-- The padding of a tail shorter than a block, to one whole block (R115). -/
def padTail (t : List Byte) : List Byte :=
  if t.length = 135 then t ++ [Config.ds ||| Config.padEnd]
  else t ++ [Config.ds] ++ List.replicate (134 - t.length) 0x00 ++ [Config.padEnd]

/-- The XOR of ABSORB: block lane `j` into lane `j`, j in 0..16; lanes 17 to 24 untouched (R116, 20_memory.md R52). -/
def xorBlock (A : Lanes) (P : List Byte) : Lanes :=
  tabulate fun i => if i < 17 then lane A i ^^^ le64 (slice P (8 * i) 8) else lane A i

/-- The digest bytes of SQUEEZE: `DIGEST[8j + t] = A[j][8t+7 : 8t]`, j in 0..3 (R117, 20_memory.md R53). -/
def squeezeBytes (A : Lanes) : DigestBytes := Vector.ofFn fun k => laneByte (lane A (k.val / 8)) (k.val % 8)

end Sys2Proof.Machine
end

