-- ==== Sys2Proof/Machine/Ops.lean ====
section
/-! DEFINITION. The named operations over the state: the sponge unit's and the permutation core's (41_sponge.md,
40_permutation.md R100), the one exception (60_exceptions.md R152), and the way a command ends (42_engine.md R125). -/

namespace Sys2Proof.Machine

/-- Go on with `f` after a next state; a fault or a refusal ends the operation. -/
def andThen (o : Result) (f : State → Result) : Result :=
  match o with
  | .next s => f s
  | .fault r => .fault r
  | .refused r => .refused r

/-- `BLEN`, the number of buffered bytes (10_state.md R27). -/
def State.blen (s : State) : Nat := s.buf.length

/-- `respond OK`: a command that succeeds ends by writing `RESP <- 0x00` (60_exceptions.md R148). -/
def State.respondOk (s : State) : State := { s with resp := respOk }

/-- Taking the one exception: `raise InvalidState` writes `RESP <- 0x01` and nothing else. No state is saved, there is no
handler and no mode change, and so there is no return from it (60_exceptions.md R152, R154). -/
def State.raiseInvalidState (s : State) : State := { s with resp := respInvalidState }

/-- The check UPDB, UPDZ and FINAL begin with: InvalidState while Finalized (60_exceptions.md R147). -/
def whileAbsorbing (s : State) (command : State → Result) : Result :=
  match s.phase with
  | .finalized => .next s.raiseInvalidState
  | .absorbing => command s

/-- An operation of the permutation core: it acts on the lanes and on nothing else (40_permutation.md R102). -/
def State.mapLanes (f : Lanes → Lanes) (s : State) : State := { s with lanes := f s.lanes }

/-- PERMUTE: `RI <- 0`, then the loop (40_permutation.md R100). `RI` keeps what the loop leaves (log entry 4). -/
def State.permute (s : State) : State :=
  { s with lanes := (permuteLoop 24 s.lanes 0).1, ri := (permuteLoop 24 s.lanes 0).2 }

/-- CLRST: all lanes zero, `BLEN <- 0` (41_sponge.md R112). -/
def State.clear (s : State) : State := { s with lanes := zeroLanes, buf := [] }

/-- PUTB: append a byte; precondition `BLEN <= 135` (41_sponge.md R113, U4). -/
def State.putByte (b : Byte) (s : State) : Result :=
  if s.blen ≤ 135 then .next { s with buf := s.buf ++ [b] } else .refused .putbBufferFull

/-- PADBLK: pad the tail to a full block; precondition `BLEN <= 135` (41_sponge.md R115, U4). -/
def State.padBlock (s : State) : Result :=
  if s.blen ≤ 135 then .next { s with buf := padTail s.buf } else .refused .padblkBufferFull

/-- ABSORB: XOR the block into the rate lanes, PERMUTE, `BLEN <- 0`; precondition `BLEN = 136` (41_sponge.md R116, U4). -/
def State.absorbBlock (s : State) : Result :=
  if s.blen = 136 then .next { (s.mapLanes fun A => xorBlock A s.buf).permute with buf := [] }
  else .refused .absorbBufferNotFull

/-- SQUEEZE: `DIGEST` from lanes 0 to 3 (41_sponge.md R117). -/
def State.squeeze (s : State) : State := { s with digest := some (squeezeBytes s.lanes) }

end Sys2Proof.Machine
end

