-- ==== Sys2Proof/Machine/Engine.lean ====
section
/-! DEFINITION. The meanings of the engine's commands (42_engine.md R126 to R129). Each ends by writing `RESP` (R125). -/

namespace Sys2Proof.Machine

/-- INIT (R126): CLRST, Absorbing, `DIGEST` loses its value, OK. Valid in both phases. -/
def execInit (s : State) : Result := .next ({ s.clear with phase := .absorbing, digest := none }.respondOk)

/-- The ABSORB inside UPDB: `if BLEN = 136: ABSORB` (R127). -/
def absorbIfFull (s : State) : Result := if s.blen = 136 then s.absorbBlock else .next s

/-- UPDB (R127): InvalidState while Finalized; else PUTB, ABSORB if the buffer is full, OK. -/
def execUpdb (b : Byte) (s : State) : Result :=
  whileAbsorbing s fun s => andThen (s.putByte b) fun s => andThen (absorbIfFull s) fun s => .next s.respondOk

/-- UPDZ (R128): InvalidState while Finalized; else OK. -/
def execUpdz (s : State) : Result := whileAbsorbing s fun s => .next s.respondOk

/-- FINAL (R129): InvalidState while Finalized; else PADBLK, ABSORB, SQUEEZE, Finalized, OK. -/
def execFinal (s : State) : Result :=
  whileAbsorbing s fun s => andThen s.padBlock fun s => andThen s.absorbBlock fun s =>
    .next ({ s.squeeze with phase := .finalized }.respondOk)

end Sys2Proof.Machine
end

