-- ==== Sys2Proof/Machine/Operands.lean ====
section
/-! DEFINITION. The operand forms (30_encoding.md R72, R73): a data byte is `imm8` itself, so only the round index of
format R needs a reading. -/

namespace Sys2Proof.Machine

/-- The round index an `imm8` stands for: 0 to 23, nothing above (R72, R73). -/
def roundIndex (imm : Byte) : Option (Fin 24) :=
  if h : imm.toNat < 24 then some ⟨imm.toNat, h⟩ else none

end Sys2Proof.Machine
end

