-- ==== Sys2Proof/Machine/Permutation.lean ====
section
/-! DEFINITION. The meanings of the permutation core's operations (40_permutation.md). They write no flag, no response
(30_encoding.md R76) and cannot fail (R90). -/

namespace Sys2Proof.Machine

/-- THETA (R92). -/
def execTheta (s : State) : Result := .next (s.mapLanes thetaLanes)

/-- RHO (R93). -/
def execRho (s : State) : Result := .next (s.mapLanes rhoLanes)

/-- PI (R94, R95). -/
def execPi (s : State) : Result := .next (s.mapLanes piLanes)

/-- CHI (R96). -/
def execChi (s : State) : Result := .next (s.mapLanes chiLanes)

/-- IOTA with the round index `imm8` (R98); an index above 23 is no instruction (D24, log entry 11). -/
def execIota (imm : Byte) (s : State) : Result :=
  match roundIndex imm with
  | some r => .next (s.mapLanes (iotaLanes r))
  | none => .refused (.roundIndexReserved imm)

/-- ROUND with the round index `imm8` (R99); an index above 23 is no instruction (D24, log entry 11). -/
def execRound (imm : Byte) (s : State) : Result :=
  match roundIndex imm with
  | some r => .next (s.mapLanes (roundLanes r))
  | none => .refused (.roundIndexReserved imm)

/-- PERMUTE (R100). -/
def execPermute (s : State) : Result := .next s.permute

end Sys2Proof.Machine
end

