-- ==== Sys2Proof/Machine/Sponge.lean ====
section
/-! DEFINITION. The meanings of the sponge unit's operations (41_sponge.md). They write no flag and no response
(R110, 30_encoding.md R76). -/

namespace Sys2Proof.Machine

/-- CLRST (R112). -/
def execClrst (s : State) : Result := .next s.clear

/-- PUTB (R113). -/
def execPutb (b : Byte) (s : State) : Result := s.putByte b

/-- PADBLK (R115). -/
def execPadblk (s : State) : Result := s.padBlock

/-- ABSORB (R116). -/
def execAbsorb (s : State) : Result := s.absorbBlock

/-- SQUEEZE (R117). -/
def execSqueeze (s : State) : Result := .next s.squeeze

end Sys2Proof.Machine
end

