-- ==== Sys2Proof/Machine/Dispatch.lean ====
section
/-! DEFINITION. The meaning of each instruction, one arm per constructor. -/

namespace Sys2Proof.Machine

def exec (i : Instr) (s : State) : Host.Outcome State Fault Refusal :=
  match i with
  | .init => Sys2Proof.Machine.execInit s
  | .updb b => Sys2Proof.Machine.execUpdb b s
  | .updz => Sys2Proof.Machine.execUpdz s
  | .final => Sys2Proof.Machine.execFinal s
  | .clrst => Sys2Proof.Machine.execClrst s
  | .putb b => Sys2Proof.Machine.execPutb b s
  | .padblk => Sys2Proof.Machine.execPadblk s
  | .absorb => Sys2Proof.Machine.execAbsorb s
  | .squeeze => Sys2Proof.Machine.execSqueeze s
  | .theta => Sys2Proof.Machine.execTheta s
  | .rho => Sys2Proof.Machine.execRho s
  | .pi => Sys2Proof.Machine.execPi s
  | .chi => Sys2Proof.Machine.execChi s
  | .iota r => Sys2Proof.Machine.execIota r s
  | .round r => Sys2Proof.Machine.execRound r s
  | .permute => Sys2Proof.Machine.execPermute s

end Sys2Proof.Machine
end

