-- ==== Sys2Proof/Machine/Port.lean ====
section
/-! DEFINITION. What a host does to the engine, one action at a time (70_reset_and_hazards.md R180). -/

namespace Sys2Proof.Machine

/-- Reset, at any time (R165, R166): the state of R40, whatever went before; what the host does next is still to come. -/
def State.assertReset (s : State) : State := { State.reset with pending := s.pending }

/-- A word handed over at a port: decoded first, a reserved word having no meaning whatever the phase
(60_exceptions.md R151), then executed. -/
def issue (p : Port) (w : CmdWord) (s : State) : Result :=
  match decodeAt p w with
  | .ok i => exec i s
  | .error why => .refused (.reservedWord why)

/-- A read hands bytes back and has no side effect on the engine (20_memory.md R58). -/
def State.handBack (bytes : List Byte) (s : State) : State := { s with hostRead := bytes }

/-- A read that takes the bytes `bytes d` from the value `d` of `DIGEST`: handed back while Finalized; refused while the
register has no value (10_state.md R29, U2). -/
def State.readFromDigest (bytes : DigestBytes → List Byte) (s : State) : Result :=
  match s.phase, s.digest with
  | .finalized, some d => .next (s.handBack (bytes d))
  | .finalized, none => .refused .digestHasNoValue
  | .absorbing, _ => .refused .digestHasNoValue

/-- A read of `DIGEST`, all 32 bytes (20_memory.md R56). -/
def readDigest (s : State) : Result := s.readFromDigest Vector.toList

/-- A read of any of the 32 bytes of `DIGEST`: those of the indices `ks` (20_memory.md R51, R56). -/
def readDigestBytes (ks : List (Fin 32)) (s : State) : Result := s.readFromDigest fun d => ks.map fun k => d[k]

/-- One host action (R180). A reset during a command leaves no effect of it (R166, U8); the word of a command in progress
is a legal one, since a reserved word starts none. -/
def takeAction (a : HostAction) (s : State) : Result :=
  match a with
  | .reset => .next s.assertReset
  | .resetDuring w =>
    match decodeAt .cmd w with
    | .ok _ => .next s.assertReset
    | .error why => .refused (.reservedWord why)
  | .word p w => issue p w s
  | .readStatus => .next (s.handBack [s.status])
  | .readResp => .next (s.handBack [s.resp])
  | .readDigest => readDigest s
  | .readDigestBytes ks => readDigestBytes ks s

/-- The next action of the pending list is taken, whole and in order (20_memory.md R57, R61). With none pending the engine
waits (70_reset_and_hazards.md R167; log entry 8). -/
def stepEngine (s : State) : Result :=
  match s.pending with
  | [] => .next s
  | a :: rest => takeAction a { s with pending := rest }

/-- The action that hands over a word on the port of the block its `blk` field names; `CMD` for a reserved `blk`
(log entry 13). -/
def actionOfWord (w : CmdWord) : HostAction :=
  match (blkOf w).toNat with
  | 1 => .word .spgBus w
  | 2 => .word .prmBus w
  | _ => .word .cmd w

end Sys2Proof.Machine
end

