-- ==== Sys2Proof/Machine/Step.lean ====
section
/-! DEFINITION. The step of the machine, and how a word is placed as the next one the step takes. -/

namespace Sys2Proof.Machine

/-- One step: the next host action (`stepEngine`). -/
def step (s : State) : Host.Outcome State Fault Refusal := stepEngine s

/-- `s` with the word `w` (its `nbits` low bits) as the very next thing handed over, on the port of its own block
(log entries 1, 13). -/
def State.withFetchWord (s : State) (nbits w : Nat) : State :=
  { s with pending := actionOfWord (BitVec.ofNat 16 (w % 2 ^ nbits)) :: s.pending }

end Sys2Proof.Machine
end

