-- ==== Sys2Proof/Machine/Instances.lean ====
section
/-! DEFINITION. Any number of engine instances (00_scope.md R8, 60_exceptions.md R159): each is one `State`, and they share
nothing writable (20_memory.md R66). Which instance steps next is the caller's choice: the spec orders nothing between
them. -/

namespace Sys2Proof.Machine

/-- Instance `k` of `n` takes one step. -/
def stepInstance {n : Nat} (k : Fin n) (es : Vector State n) : Host.Outcome (Vector State n) Fault Refusal :=
  match step es[k] with
  | .next t => .next (es.set k t)
  | .fault r => .fault r
  | .refused r => .refused r

end Sys2Proof.Machine
end

