-- ==== Sys2Proof/Machine/Hash.lean ====
section
/-! DEFINITION. The hash as a function (41_sponge.md R114, R119, R120): what the engine's commands are to deliver. It uses
no state, no buffer and no loop counter. -/

namespace Sys2Proof.Machine

/-- `ROUND 23 ∘ ... ∘ ROUND 0`, ROUND 0 first (40_permutation.md R101). -/
def keccakF (A : Lanes) : Lanes := (List.finRange 24).foldl (fun A r => roundLanes r A) A

/-- `pad(t)` for a remainder of any length (R114). -/
def pad (t : List Byte) : List Byte :=
  let q := 136 - t.length % 136
  if q = 1 then t ++ [0x81] else t ++ [0x01] ++ List.replicate (q - 2) 0x00 ++ [0x80]

/-- Absorb the first `n` blocks of `P` in order, from lanes `A` (R119). -/
def absorbBlocks (A : Lanes) : Nat → List Byte → Lanes
  | 0, _ => A
  | n + 1, P => absorbBlocks (keccakF (xorBlock A (P.take 136))) n (P.drop 136)

/-- `absorb_all(P)`, for a length that is a multiple of 136 (R119). -/
def absorbAll (P : List Byte) : Lanes := absorbBlocks zeroLanes (P.length / 136) P

/-- `keccak256(m)` (R120). -/
def keccak256 (m : List Byte) : DigestBytes := squeezeBytes (absorbAll (pad m))

end Sys2Proof.Machine
end

