-- ==== Sys2Proof/Machine/HostSide.lean ====
section
/-! DEFINITION. The host's side, which is not hardware: the pseudo-commands UPDATE and HASH (30_encoding.md R82,
42_engine.md R130, R131), the rendering TOHEX (R137), and the assembler notation (30_encoding.md R81). -/

namespace Sys2Proof.Machine

/-- `UPDATE c`: UPDZ for an empty chunk, else one UPDB per byte in order (R82, R130). -/
def updateInstrs : List Byte → List Instr
  | [] => [.updz]
  | b :: bs => (b :: bs).map .updb

/-- `HASH m`: INIT, UPDATE m, FINAL; the read of `DIGEST` follows (R82, R131). -/
def hashInstrs (m : List Byte) : List Instr := .init :: updateInstrs m ++ [.final]

/-- A host issues commands one by one at `CMD` and reads `RESP` after each: at the first response that is not OK it stops
(R130). -/
def issueAll : List Instr → State → Result
  | [], s => .next s
  | i :: is, s =>
    andThen (takeAction (.word .cmd (encode i)) s) fun t => if t.resp = respOk then issueAll is t else .next t

/-- `UPDATE c` (R130). -/
def hostUpdate (c : List Byte) (s : State) : Result := issueAll (updateInstrs c) s

/-- `HASH m` (R131): the digest read at its end is what the last host read handed back. -/
def hostHash (m : List Byte) (s : State) : Result := andThen (issueAll (hashInstrs m) s) (takeAction .readDigest)

/-- A lowercase hexadecimal digit (R137). -/
def hexDigit (n : Nat) : Char := ['0', '1', '2', '3', '4', '5', '6', '7', '8', '9', 'a', 'b', 'c', 'd', 'e', 'f'].getD n '0'

/-- The value of a lowercase hexadecimal digit. -/
def hexValue (c : Char) : Option Nat := (List.range 16).find? fun n => hexDigit n == c

/-- `TOHEX` as characters: byte 0 first, the high nibble of each byte first (R137). -/
def toHexChars (bytes : List Byte) : List Char :=
  bytes.flatMap fun v => [hexDigit (v.toNat / 16), hexDigit (v.toNat % 16)]

/-- `TOHEX` (R137). -/
def toHex (bytes : List Byte) : String := String.ofList (toHexChars bytes)

/-- `FROMHEX`, the inverse of TOHEX (R137), on characters. -/
def fromHexChars : List Char → Option (List Byte)
  | [] => some []
  | [_] => none
  | c :: d :: cs =>
    match hexValue c, hexValue d, fromHexChars cs with
    | some h, some l, some bs => some (BitVec.ofNat 8 (16 * h + l) :: bs)
    | _, _, _ => none

/-- A data byte in the assembler: `0x` and two hexadecimal digits (30_encoding.md R81). -/
def asmByte (b : Byte) : String := "0x" ++ String.ofList ((toHexChars [b]).map Char.toUpper)

/-- One line of the assembler notation (30_encoding.md R81). -/
def asm : Instr → String
  | .init => "INIT"
  | .updb b => "UPDB " ++ asmByte b
  | .updz => "UPDZ"
  | .final => "FINAL"
  | .clrst => "CLRST"
  | .putb b => "PUTB " ++ asmByte b
  | .padblk => "PADBLK"
  | .absorb => "ABSORB"
  | .squeeze => "SQUEEZE"
  | .theta => "THETA"
  | .rho => "RHO"
  | .pi => "PI"
  | .chi => "CHI"
  | .iota r => "IOTA " ++ toString r.toNat
  | .round r => "ROUND " ++ toString r.toNat
  | .permute => "PERMUTE"

end Sys2Proof.Machine
end

