-- ==== Sys2Proof/Safety.lean ====
section
/-! DEFINITION. What counts as a safe run, in the terms claims use: the invariants that hold between two commands
(10_state.md R41), what a host may do (70_reset_and_hazards.md R180), what it can see (10_state.md R36), and the message an
engine has been given. Beside them the lane and run accessors statements are written with. -/

namespace Sys2Proof.Machine

/-- `A[x,y]`; the arithmetic of `Fin 5` is the coordinate arithmetic modulo 5 of 00_scope.md R12. -/
def coord (A : Lanes) (x y : Fin 5) : Lane := A[x.val + 5 * y.val]

/-- Instructions executed one after the other, as the rules compose operations (00_scope.md R16). -/
def execAll : List Instr → State → Result
  | [], s => .next s
  | i :: is, s => andThen (exec i s) (execAll is)

/-- `n` steps of the machine; a refusal ends the run. -/
def run : Nat → State → Result
  | 0, s => .next s
  | n + 1, s => andThen (step s) (run n)

/-- The action is one a host can take: no word on an internal bus (30_encoding.md R75). -/
def HostAction.external : HostAction → Bool
  | .reset | .resetDuring _ | .readStatus | .readResp | .readDigest | .readDigestBytes _ => true
  | .word p _ => p == .cmd

/-- The command an action issues at `CMD`, if it issues a legal one. -/
def HostAction.command : HostAction → Option Instr
  | .word .cmd w => (decodeAt .cmd w).toOption
  | .word .spgBus _ | .word .prmBus _ => none
  | .reset | .resetDuring _ | .readStatus | .readResp | .readDigest | .readDigestBytes _ => none

/-- The message after a command: the bytes delivered by UPDB since the last reset or INIT; a UPDB while Finalized
delivers nothing (42_engine.md R127). -/
def messageAfterCommand (i : Instr) (phase : Phase) (m : List Byte) : List Byte :=
  match i, phase with
  | .init, _ => []
  | .updb b, .absorbing => m ++ [b]
  | .updb _, .finalized => m
  | .updz, _ | .final, _ => m
  | .clrst, _ | .putb _, _ | .padblk, _ | .absorb, _ | .squeeze, _ => m
  | .theta, _ | .rho, _ | .pi, _ | .chi, _ | .iota _, _ | .round _, _ | .permute, _ => m

/-- The message after a host action (10_state.md R41: "since the last reset or INIT"). -/
def messageAfter (a : HostAction) (phase : Phase) (m : List Byte) : List Byte :=
  match a with
  | .reset | .resetDuring _ => []
  | .readStatus | .readResp | .readDigest | .readDigestBytes _ => m
  | .word p w =>
    match (HostAction.word p w).command with
    | some i => messageAfterCommand i phase m
    | none => m

/-- The invariants of 10_state.md R41 for an engine to which the message `m` has been delivered. -/
structure EngineInv (s : State) (m : List Byte) : Prop where
  /-- (a) -/
  blen_le : s.blen ≤ 135
  /-- (b) -/
  digest_iff : s.digest.isSome = true ↔ s.phase = .finalized
  /-- (c), the length of the tail -/
  blen_eq : s.phase = .absorbing → s.blen = m.length % 136
  /-- (c), the tail: the last `BLEN` bytes of `m` -/
  buf_eq : s.phase = .absorbing → s.buf = m.drop (m.length - m.length % 136)
  /-- (c), the lanes: the full blocks of `m` absorbed in order from zero lanes -/
  lanes_eq : s.phase = .absorbing → s.lanes = absorbBlocks zeroLanes (m.length / 136) m
  /-- (d) -/
  digest_eq : s.phase = .finalized → s.digest = some (keccak256 m)

/-- What holds of a state whatever travels on the ports and buses: `BLEN` is at most 136 (R27), `RI` at most 24 (R33), and
`RESP` holds one of its two codes (R31). -/
structure StateWf (s : State) : Prop where
  blen_le : s.blen ≤ 136
  ri_le   : s.ri.toNat ≤ 24
  resp_eq : s.resp = respOk ∨ s.resp = respInvalidState

/-- What is visible from outside an instance: `STATUS`, `RESP`, and `DIGEST` only while Finalized (R36). -/
structure Visible where
  status : Byte
  resp   : Byte
  digest : Option DigestBytes
  deriving DecidableEq, Repr

/-- The visible part of a state (R36). -/
def State.visible (s : State) : Visible where
  status := s.status
  resp   := s.resp
  digest := match s.phase with
    | .finalized => s.digest
    | .absorbing => none

/-- The 259 words that are legal at the external port (30_encoding.md R78). -/
def legalExternalWords : List CmdWord :=
  [0x0000] ++ (List.range 256).map (fun b => BitVec.ofNat 16 (0x0100 + b)) ++ [0x0200, 0x0300]

/-- The run does not stop: the next `n` steps all answer a next state. -/
def RunsOn (n : Nat) (s : State) : Prop := ∃ t, run n s = .next t

end Sys2Proof.Machine
end

