-- ==== Sys2Proof/Certificates/Slice0/Obligations.lean ====
section
/-! DEFINITION. The statements for the provers. A statement's docstring names the rule of spec/ it formalises; where it
rests on the spec's own inference ([derived: ...]) or on a choice of the model, it says so. A rule about an operation gives its
word too, and so does its statement (`encode ... = ...`). -/

open Sys2Proof Sys2Proof.Machine

/-! ### Encoding and decoding -/

/-- The worked encodings (30_encoding.md section 5; the spec marks them as derived from R70 to R78): a sanity check of
the decoder on words written out from the spec. -/
def Obligations.WorkedEncodingsDecode : Prop :=
  decode 0x0000 = .ok .init ∧ decode 0x0161 = .ok (.updb 0x61) ∧ decode 0x0100 = .ok (.updb 0x00) ∧
  decode 0x01FF = .ok (.updb 0xFF) ∧ decode 0x0200 = .ok .updz ∧ decode 0x0300 = .ok .final ∧
  decode 0x2517 = .ok (.round 23) ∧ decode 0x2400 = .ok (.iota 0) ∧
  decode 0x0001 = .error .immNotZero ∧ decode 0x0400 = .error .noSuchFunction ∧
  decode 0x2518 = .error .roundIndexTooLarge ∧ decode 0xFFFF = .error .noSuchBlock ∧
  decodeAt .prmBus 0x2600 = .ok .permute ∧ decodeAt .cmd 0x2600 = .error .notOfThisPort ∧
  (hashInstrs [0x61, 0x62, 0x63]).map encode = [0x0000, 0x0161, 0x0162, 0x0163, 0x0300]

/-- R74: a word selects a row when `cw AND mask = match` and, for format R, `cw[7:0] <= 23`; no word selects two rows; a
word that selects no row is reserved. The decoder, which reads fields, agrees with that table. -/
def Obligations.DecoderFollowsTheOpcodeTable : Prop :=
  (∀ (w : CmdWord) (i : Instr), decode w = .ok i → i.row ∈ opcodeTable ∧ i.row.selects w = true ∧ i.imm8 = imm8Of w) ∧
  (∀ (w : CmdWord) (row : OpcodeRow), row ∈ opcodeTable → row.selects w = true → ∃ i, decode w = .ok i ∧ i.row = row) ∧
  (∀ (w : CmdWord) (row row' : OpcodeRow), row ∈ opcodeTable → row' ∈ opcodeTable →
    row.selects w = true → row'.selects w = true → row = row')

/-- Decode and encode agree on every instruction of every family, with every operand the encoding admits. -/
def Obligations.DecodeOfEncodeIsTheInstruction : Prop :=
  ∀ i : Instr, i.wf = true → decode (encode i) = .ok i ∧ decodeTableWord 16 (encode i).toNat = some i

/-- Each word has at most one meaning and no bit of it is dropped: what decodes, encodes back to the same word. -/
def Obligations.EncodeOfDecodeIsTheWord : Prop :=
  ∀ (w : CmdWord) (i : Instr), decode w = .ok i → encode i = w ∧ i.wf = true

/-- R78: the reserved words are exactly those of its list; at the external port exactly 259 words are legal, and a word
that is reserved at a port gets no step. (That a word of another block is reserved on an internal bus too is the model's
choice, log entry 15.) -/
def Obligations.ReservedWordsAreRefused : Prop :=
  (∀ w : CmdWord, (∃ why, decode w = .error why) ↔
    (3 ≤ (blkOf w).toNat) ∨ ((blkOf w).toNat = 0 ∧ 4 ≤ (fnOf w).toNat) ∨
    ((blkOf w).toNat = 1 ∧ 5 ≤ (fnOf w).toNat) ∨ ((blkOf w).toNat = 2 ∧ 7 ≤ (fnOf w).toNat) ∨
    (∃ row ∈ opcodeTable, row.format = .z ∧ w &&& 0xFF00 = row.matchBits ∧ imm8Of w ≠ 0) ∨
    (∃ row ∈ opcodeTable, row.format = .r ∧ w &&& 0xFF00 = row.matchBits ∧ 24 ≤ (imm8Of w).toNat)) ∧
  legalExternalWords.Nodup ∧ legalExternalWords.length = 259 ∧
  (∀ w : CmdWord, (∃ i, decodeAt .cmd w = .ok i) ↔ w ∈ legalExternalWords) ∧
  (∀ (p : Port) (w : CmdWord) (why : Reserved) (s : State), decodeAt p w = .error why →
    issue p w s = .refused (.reservedWord why))

/-- A port takes the words of its own block only, so the external port takes the four commands and no operation of the
sponge unit or the permutation core (R75). That an internal bus takes no word of another block is the model's choice (log
entry 15). -/
def Obligations.PortsTakeTheirOwnBlockOnly : Prop :=
  ∀ (p : Port) (w : CmdWord) (i : Instr), decodeAt p w = .ok i ↔ decode w = .ok i ∧ i.block = p.block

/-! ### The step -/

/-- A step runs the decoded instruction: when the next thing handed over is a word that its port decodes to `i`, the step
is `exec i` at the state with that word taken. With an ill-received word the step is refused. That the input is a pending
list is the model's choice (log entry 1). -/
def Obligations.StepRunsTheDecodedInstruction : Prop :=
  ∀ (s : State) (p : Port) (w : CmdWord) (rest : List HostAction), s.pending = .word p w :: rest →
    (∀ i, decodeAt p w = .ok i → step s = exec i { s with pending := rest }) ∧
    (∀ why, decodeAt p w = .error why → step s = .refused (.reservedWord why))

/-- Every well-formed instruction, placed as the next word on the port of its block, is the instruction the next step runs,
from any state. The placing is the model's choice (log entries 1, 13). -/
def Obligations.PlacedWordIsRunNext : Prop :=
  ∀ (s : State) (i : Instr), i.wf = true → step (s.withFetchWord 16 (encode i).toNat) = exec i s

/-- With nothing pending the engine waits: the step leaves the state as it is (log entry 8). -/
def Obligations.StepWaitsWhenNothingIsPending : Prop :=
  ∀ s : State, s.pending = [] → step s = .next s

/-- The reads of STATUS, RESP and DIGEST hand their bytes back and change nothing of the engine; a DIGEST read while
Absorbing is refused. How a read appears in a step is the model's choice (log entry 6). -/
def Obligations.ReadsHaveNoSideEffect : Prop :=
  ∀ (s : State) (rest : List HostAction),
    (s.pending = .readStatus :: rest → step s = .next { s with pending := rest, hostRead := [s.status] }) ∧
    (s.pending = .readResp :: rest → step s = .next { s with pending := rest, hostRead := [s.resp] }) ∧
    (∀ d : DigestBytes, s.pending = .readDigest :: rest → s.phase = .finalized → s.digest = some d →
      step s = .next { s with pending := rest, hostRead := d.toList }) ∧
    (s.pending = .readDigest :: rest → s.phase = .absorbing → step s = .refused .digestHasNoValue)

/-- The STATUS register (R30): bit 0 of STATUS is PHASE, bits 7 to 1 read as zero. -/
def Obligations.StatusShowsThePhase : Prop :=
  ∀ s : State, (s.status.getLsbD 0 = true ↔ s.phase = .finalized) ∧ ∀ n, 1 ≤ n → n ≤ 7 → s.status.getLsbD n = false

/-! ### Reset -/

/-- The values of R40's table after reset and after INIT (for the elements the rule gives a value or calls without value: `RI` is
left open by it and is not named here). -/
def Obligations.ResetAndInitValues : Prop :=
  (∀ i : Fin 25, State.reset.lanes[i] = 0x0000000000000000) ∧ State.reset.blen = 0 ∧ State.reset.phase = .absorbing ∧
  State.reset.digest = none ∧ State.reset.status = 0x00 ∧ State.reset.resp = 0x00 ∧
  ∀ s : State, ∃ t, exec .init s = .next t ∧ (∀ i : Fin 25, t.lanes[i] = 0x0000000000000000) ∧ t.blen = 0 ∧
    t.phase = .absorbing ∧ t.digest = none ∧ t.status = 0x00 ∧ t.resp = 0x00

/-- R165, R166: reset, also one that cuts a legal command short, leaves the reset values whatever the state was, and
nothing of the command. (The host's later actions stay pending: log entry 7.) -/
def Obligations.ResetForgetsEverything : Prop :=
  ∀ (s : State) (a : HostAction) (rest : List HostAction), s.pending = a :: rest →
    (a = .reset ∨ ∃ w ∈ legalExternalWords, a = .resetDuring w) →
    ∃ t, step s = .next t ∧ t.lanes = State.reset.lanes ∧ t.buf = [] ∧ t.phase = .absorbing ∧ t.digest = none ∧
      t.resp = 0x00 ∧ t.status = 0x00 ∧ t.pending = rest

/-! ### The permutation core -/

/-- R92, THETA: `C[x]` is the XOR of column x, `D[x] = C[(x-1) mod 5] XOR rotl(C[(x+1) mod 5], 1)`, and every lane (x,y)
becomes itself XOR `D[x]`; nothing else changes. -/
def Obligations.ThetaXorsColumnParities : Prop :=
  encode .theta = 0x2000 ∧ ∀ s : State, ∃ A : Lanes, exec .theta s = .next { s with lanes := A } ∧
    ∃ C D : Fin 5 → Lane,
      (∀ x, C x = coord s.lanes x 0 ^^^ coord s.lanes x 1 ^^^ coord s.lanes x 2 ^^^ coord s.lanes x 3 ^^^ coord s.lanes x 4) ∧
      (∀ x, D x = C (x - 1) ^^^ (C (x + 1)).rotateLeft 1) ∧
      ∀ x y, coord A x y = coord s.lanes x y ^^^ D x

/-- R93, RHO: lane i is rotated left by `ROT[i]`, that is, bit z moves to bit (z + ROT[i]) mod 64; nothing else changes. -/
def Obligations.RhoRotatesEachLane : Prop :=
  encode .rho = 0x2100 ∧ ∀ s : State, ∃ A : Lanes, exec .rho s = .next { s with lanes := A } ∧
    ∀ (i : Fin 25) (z : Nat), z < 64 → A[i].getLsbD ((z + Config.rot[i]) % 64) = s.lanes[i].getLsbD z

/-- R94, PI: the lane at (x,y) goes to (y, (2x+3y) mod 5), equivalently (X,Y) receives the old ((X+3Y) mod 5, X); nothing
else changes. The corrected map of 90_conflicts.md C1. -/
def Obligations.PiMovesLanes : Prop :=
  encode .pi = 0x2200 ∧ ∀ s : State, ∃ A : Lanes, exec .pi s = .next { s with lanes := A } ∧
    (∀ x y : Fin 5, coord A y (2 * x + 3 * y) = coord s.lanes x y) ∧
    (∀ X Y : Fin 5, coord A X Y = coord s.lanes (X + 3 * Y) X)

/-- PI as a table (40_permutation.md R95, which the spec marks as derived from R94): SRC and DST are inverse permutations
of 0..24 and PI follows both. -/
def Obligations.PiFollowsTheTables : Prop :=
  ∃ SRC DST : Fin 25 → Fin 25,
    (List.ofFn SRC = [0, 6, 12, 18, 24, 3, 9, 10, 16, 22, 1, 7, 13, 19, 20, 4, 5, 11, 17, 23, 2, 8, 14, 15, 21]) ∧
    (List.ofFn DST = [0, 10, 20, 5, 15, 16, 1, 11, 21, 6, 7, 17, 2, 12, 22, 23, 8, 18, 3, 13, 14, 24, 9, 19, 4]) ∧
    (∀ i, SRC (DST i) = i ∧ DST (SRC i) = i) ∧
    ∀ s : State, ∃ A : Lanes, exec .pi s = .next { s with lanes := A } ∧
      ∀ i, A[i] = s.lanes[SRC i] ∧ A[DST i] = s.lanes[i]

/-- R96, CHI: every lane (x,y) becomes itself XOR (NOT (x+1, y) AND (x+2, y)), all read before any is written; nothing
else changes. -/
def Obligations.ChiCombinesEachRow : Prop :=
  encode .chi = 0x2300 ∧ ∀ s : State, ∃ A : Lanes, exec .chi s = .next { s with lanes := A } ∧
    ∀ x y : Fin 5, coord A x y = coord s.lanes x y ^^^ (~~~ coord s.lanes (x + 1) y &&& coord s.lanes (x + 2) y)

/-- R98, IOTA: lane 0 is XORed with `RC[r]`, the other 24 lanes and all else are untouched, and the same IOTA again
restores the state. -/
def Obligations.IotaXorsTheRoundConstant : Prop :=
  ∀ (s : State) (imm : Byte) (r : Fin 24), imm.toNat = r.val →
    encode (.iota imm) = 0x2400 ||| imm.setWidth 16 ∧
    ∃ A : Lanes, exec (.iota imm) s = .next { s with lanes := A } ∧
      A[0] = s.lanes[0] ^^^ Config.rc[r] ∧ (∀ i : Fin 25, i ≠ 0 → A[i] = s.lanes[i]) ∧
      exec (.iota imm) { s with lanes := A } = .next s

/-- A round index of 24 or above is no instruction: no word decodes to it, and the model refuses the term (decision D24;
the refusal is the model's choice, log entry 11). -/
def Obligations.RoundIndexAbove23IsRefused : Prop :=
  ∀ imm : Byte, 24 ≤ imm.toNat →
    (∀ w : CmdWord, decode w ≠ .ok (.iota imm) ∧ decode w ≠ .ok (.round imm)) ∧
    ∀ s : State, exec (.iota imm) s = .refused (.roundIndexReserved imm) ∧
      exec (.round imm) s = .refused (.roundIndexReserved imm)

/-- R99 with R91, ROUND: THETA, RHO, PI, CHI, IOTA r in that order; it completes for every legal index and changes the
lanes only. -/
def Obligations.RoundIsTheFiveStepsInOrder : Prop :=
  ∀ (s : State) (imm : Byte), imm.toNat ≤ 23 →
    encode (.round imm) = 0x2500 ||| imm.setWidth 16 ∧
    ∃ A : Lanes, exec (.round imm) s = .next { s with lanes := A } ∧
      execAll [.theta, .rho, .pi, .chi, .iota imm] s = .next { s with lanes := A }

/-- R100 and R101, PERMUTE: the loop over `RI` is the 24 rounds 0 to 23 in sequence, whatever the lanes hold; nothing else
changes but the scratch `RI`, which has no meaning afterwards (R33) and of which nothing is claimed. -/
def Obligations.PermuteIsTwentyFourRounds : Prop :=
  encode .permute = 0x2600 ∧ ∀ s : State, ∃ (A : Lanes) (ri : BitVec 5), exec .permute s = .next { s with lanes := A, ri := ri } ∧
    execAll ((List.range 24).map fun r => .round (BitVec.ofNat 8 r)) s = .next { s with lanes := A }

/-- R102: every operation of the permutation core is a function of the lanes alone, and writes the lanes (PERMUTE also its
scratch `RI`) and nothing else. -/
def Obligations.PermutationCoreIsPure : Prop :=
  ∀ (i : Instr) (s t s' : State), i.block = .prm → s.lanes = t.lanes → exec i s = .next s' →
    s'.buf = s.buf ∧ s'.phase = s.phase ∧ s'.digest = s.digest ∧ s'.resp = s.resp ∧ s'.pending = s.pending ∧
    s'.hostRead = s.hostRead ∧ (i ≠ .permute → s'.ri = s.ri) ∧
    ∃ t', exec i t = .next t' ∧ t'.lanes = s'.lanes

/-! ### The sponge unit -/

/-- R112, CLRST: every lane zero, `BLEN` 0; nothing else changes. -/
def Obligations.ClrstClearsLanesAndBuffer : Prop :=
  encode .clrst = 0x1000 ∧ ∀ s : State, exec .clrst s = .next { s with lanes := Vector.replicate 25 0, buf := [] }

/-- R113, PUTB: `BUF[BLEN] <- b`, `BLEN <- BLEN + 1`, the earlier bytes and all else unchanged; with `BLEN` past 135 it is
refused. -/
def Obligations.PutbAppendsOneByte : Prop :=
  ∀ (s : State) (b : Byte), encode (.putb b) = 0x1100 ||| b.setWidth 16 ∧
    (s.blen ≤ 135 →
      ∃ B : List Byte, exec (.putb b) s = .next { s with buf := B } ∧ B.length = s.blen + 1 ∧ B[s.blen]? = some b ∧
        ∀ k, k < s.blen → B[k]? = s.buf[k]?) ∧
    (136 ≤ s.blen → exec (.putb b) s = .refused .putbBufferFull)

/-- R115, PADBLK: at `r = BLEN = 135` byte 135 is 0x81; else byte r is 0x01, bytes r+1 to 134 are 0x00 and byte 135 is
0x80; the first r bytes and all else are unchanged and `BLEN` is 136. With `BLEN` past 135 it is refused (U4). -/
def Obligations.PadblkPadsTheTail : Prop :=
  encode .padblk = 0x1200 ∧ ∀ s : State,
    (s.blen ≤ 135 →
      ∃ B : List Byte, exec .padblk s = .next { s with buf := B } ∧ B.length = 136 ∧
        (∀ k, k < s.blen → B[k]? = s.buf[k]?) ∧
        (s.blen = 135 → B[135]? = some 0x81) ∧
        (s.blen ≠ 135 → B[s.blen]? = some 0x01 ∧ (∀ k, s.blen < k → k < 135 → B[k]? = some 0x00) ∧
          B[135]? = some 0x80)) ∧
    (136 ≤ s.blen → exec .padblk s = .refused .padblkBufferFull)

/-- R116 with R52, ABSORB: block byte k is XORed into bits 8*(k mod 8)+7 : 8*(k mod 8) of lane floor(k/8), lanes 17 to 24
are untouched, then PERMUTE runs on the full state and `BLEN` is 0; nothing else changes (of PERMUTE's scratch `RI` nothing is
claimed). With `BLEN` other than 136 it is refused. -/
def Obligations.AbsorbXorsTheBlockAndPermutes : Prop :=
  encode .absorb = 0x1300 ∧ ∀ s : State,
    (s.blen = 136 →
      ∃ (X A : Lanes) (ri : BitVec 5),
        (∀ k : Nat, ∀ _ : k < 136,
          some ((s.lanes[k / 8] ^^^ X[k / 8]).extractLsb' (8 * (k % 8)) 8) = s.buf[k]?) ∧
        (∀ i : Fin 25, 17 ≤ i.val → X[i] = s.lanes[i]) ∧
        exec .permute { s with lanes := X } = .next { s with lanes := A, ri := ri } ∧
        exec .absorb s = .next { s with lanes := A, ri := ri, buf := [] }) ∧
    (s.blen ≠ 136 → exec .absorb s = .refused .absorbBufferNotFull)

/-- R117 with R53, SQUEEZE: `DIGEST[8j + t] = A[j][8t+7 : 8t]`; the lanes are read, not changed, and nothing else changes. -/
def Obligations.SqueezeSerialisesLanesZeroToThree : Prop :=
  encode .squeeze = 0x1400 ∧ ∀ s : State, ∃ d : DigestBytes, exec .squeeze s = .next { s with digest := some d } ∧
    ∀ (j : Fin 4) (t : Fin 8), d[8 * j.val + t.val] = (s.lanes[j.val]).extractLsb' (8 * t.val) 8

/-- R14: `le64` is the little-endian value of 8 bytes and `bytes_le64` is its inverse. -/
def Obligations.LittleEndianLanes : Prop :=
  (∀ a b c d e f g h : Byte, (le64 [a, b, c, d, e, f, g, h]).toNat =
    a.toNat + 2 ^ 8 * b.toNat + 2 ^ 16 * c.toNat + 2 ^ 24 * d.toNat + 2 ^ 32 * e.toNat + 2 ^ 40 * f.toNat +
      2 ^ 48 * g.toNat + 2 ^ 56 * h.toNat) ∧
  (∀ v : Lane, le64 (bytesLe64 v) = v) ∧ (∀ s : List Byte, s.length = 8 → bytesLe64 (le64 s) = s)

/-- R114: with `q = 136 - (|t| mod 136)`, `pad` appends 0x81 when q is 1 and 0x01, q-2 zero bytes, 0x80 otherwise; the
padded length is a multiple of 136, strictly longer and by at most 136; the padding depends on the length modulo 136 only. -/
def Obligations.PadRule : Prop :=
  (∀ t : List Byte, t.length % 136 = 135 → pad t = t ++ [0x81]) ∧
  (∀ t : List Byte, t.length % 136 ≠ 135 →
    pad t = t ++ [0x01] ++ List.replicate (136 - t.length % 136 - 2) 0x00 ++ [0x80]) ∧
  (∀ t : List Byte, (pad t).length % 136 = 0 ∧ t.length < (pad t).length ∧ (pad t).length ≤ t.length + 136) ∧
  (∀ t u : List Byte, t.length % 136 = u.length % 136 → (pad t).drop t.length = (pad u).drop u.length)

/-- Padding the tail equals padding the message (41_sponge.md R121, which the spec marks as derived from R114, R115 and
R119), and PADBLK makes exactly `pad` of the tail (an inference the spec marks inside R115). -/
def Obligations.PaddingTheTailEqualsPaddingTheMessage : Prop :=
  (∀ m : List Byte, pad m = m.take (136 * (m.length / 136)) ++ pad (m.drop (136 * (m.length / 136))) ∧
    (pad m).length = 136 * (m.length / 136 + 1)) ∧
  (∀ s : State, s.blen ≤ 135 → exec .padblk s = .next { s with buf := pad s.buf })

/-! ### The engine -/

/-- R126, INIT: CLRST, Absorbing, `DIGEST` loses its value, OK, in both phases; a second INIT, and INIT right after reset,
change nothing. -/
def Obligations.InitBeginsAComputation : Prop :=
  encode .init = 0x0000 ∧
  (∀ s : State, exec .init s = .next { s with
    lanes := Vector.replicate 25 0, buf := [], phase := .absorbing, digest := none, resp := 0x00 }) ∧
  (∀ s : State, execAll [.init, .init] s = exec .init s) ∧
  exec .init State.reset = .next State.reset

/-- R127, UPDB: InvalidState while Finalized, changing `RESP` only; while Absorbing PUTB, then ABSORB exactly when `BLEN`
has become 136, then OK. -/
def Obligations.UpdbFeedsOneByte : Prop :=
  ∀ (s : State) (b : Byte), encode (.updb b) = 0x0100 ||| b.setWidth 16 ∧
    (s.phase = .finalized → exec (.updb b) s = .next { s with resp := 0x01 }) ∧
    (s.phase = .absorbing → s.blen < 135 → exec (.updb b) s = .next { s with buf := s.buf ++ [b], resp := 0x00 }) ∧
    (s.phase = .absorbing → s.blen = 135 →
      ∃ t, execAll [.putb b, .absorb] s = .next t ∧ t.blen = 0 ∧ exec (.updb b) s = .next { t with resp := 0x00 })

/-- R128, UPDZ: InvalidState while Finalized; while Absorbing it changes `RESP` only. -/
def Obligations.UpdzChangesRespOnly : Prop :=
  encode .updz = 0x0200 ∧ ∀ s : State, (s.phase = .finalized → exec .updz s = .next { s with resp := 0x01 }) ∧
    (s.phase = .absorbing → exec .updz s = .next { s with resp := 0x00 })

/-- R129, FINAL: InvalidState while Finalized, changing `RESP` only; while Absorbing PADBLK, ABSORB, SQUEEZE, Finalized, OK,
whatever `BLEN` is (0 to 135, R27). -/
def Obligations.FinalPadsAbsorbsAndSqueezes : Prop :=
  encode .final = 0x0300 ∧ ∀ s : State,
    (s.phase = .finalized → exec .final s = .next { s with resp := 0x01 }) ∧
    (s.phase = .absorbing → s.blen ≤ 135 →
      ∃ t, execAll [.padblk, .absorb, .squeeze] s = .next t ∧ t.blen = 0 ∧ t.digest.isSome = true ∧
        exec .final s = .next { t with phase := .finalized, resp := 0x00 })

/-- R152: of all instructions, exactly the engine's UPDB, UPDZ and FINAL raise InvalidState, exactly while Finalized, and then
`RESP` is 0x01 and nothing else changes. Every other engine command answers OK, and no other operation writes `RESP`. -/
def Obligations.InvalidStateExactlyWhenFinalized : Prop :=
  ∀ (i : Instr) (s t : State), exec i s = .next t →
    (i.block = .eng → i ≠ .init → s.phase = .finalized → t = { s with resp := 0x01 }) ∧
    (i.block = .eng → (i = .init ∨ s.phase = .absorbing) → t.resp = 0x00) ∧
    (i.block ≠ .eng → t.resp = s.resp)

/-- R154: while Finalized every further UPDB, UPDZ or FINAL raises InvalidState again with the same effect, however many
follow; nothing accumulates, and an INIT after them starts a new computation and responds OK. -/
def Obligations.FinalizedRejectsUntilInit : Prop :=
  ∀ (s : State) (is : List Instr), s.phase = .finalized → is ≠ [] → (∀ i ∈ is, i.block = .eng ∧ i ≠ .init) →
    execAll is s = .next { s with resp := 0x01 } ∧
    ∃ t, execAll (is ++ [.init]) s = .next t ∧ t.phase = .absorbing ∧ t.blen = 0 ∧ t.digest = none ∧ t.resp = 0x00

/-- R28: of all instructions only INIT sets PHASE to Absorbing and only a FINAL that succeeds sets it to Finalized; nothing
else writes it. -/
def Obligations.OnlyInitAndFinalChangeThePhase : Prop :=
  ∀ (i : Instr) (s t : State), exec i s = .next t → t.phase ≠ s.phase →
    (i = .init ∧ t.phase = .absorbing) ∨ (i = .final ∧ s.phase = .absorbing ∧ t.phase = .finalized ∧ t.resp = 0x00)

/-- The access table of 10_state.md section 6 (which the spec marks as derived): what each instruction leaves unchanged.
The lanes change in UPDB only when the byte fills the block. -/
def Obligations.FrameOfEveryInstruction : Prop :=
  ∀ (i : Instr) (s t : State), exec i s = .next t →
    (i ∈ [.updz, .padblk, .squeeze] → t.lanes = s.lanes) ∧
    (∀ b, (i = .putb b → t.lanes = s.lanes) ∧ (i = .updb b → s.blen ≠ 135 → t.lanes = s.lanes ∧ t.ri = s.ri)) ∧
    (i.block = .prm ∨ i ∈ [.updz, .squeeze] → t.buf = s.buf) ∧
    (i.block = .prm → i ≠ .permute → t.ri = s.ri) ∧
    (i ∈ [.init, .updz, .clrst, .padblk, .squeeze] → t.ri = s.ri) ∧
    (∀ b, i = .putb b → t.ri = s.ri) ∧
    (i.block ≠ .eng → t.phase = s.phase) ∧
    (i ∉ [.init, .final, .squeeze] → t.digest = s.digest) ∧
    (i = .final → s.phase = .finalized → t.digest = s.digest) ∧
    t.pending = s.pending ∧ t.hostRead = s.hostRead

/-- R134, R177: no command is ever refused for its data; every engine command has a step whenever `BLEN` is 0 to 135, as it
is between commands (R27), and leaves `BLEN` so. With more bytes in the buffer, which no command leaves, UPDB and FINAL while
Absorbing stop where their PUTB and PADBLK stop (the model's choice, log entry 10). -/
def Obligations.EveryCommandHasAStep : Prop :=
  (∀ (i : Instr) (s : State), i.block = .eng → s.blen ≤ 135 → ∃ t, exec i s = .next t ∧ t.blen ≤ 135) ∧
  (∀ (s : State) (b : Byte), s.phase = .absorbing → 136 ≤ s.blen →
    exec (.updb b) s = .refused .putbBufferFull ∧ exec .final s = .refused .padblkBufferFull)

/-! ### Whole-machine rules -/

/-- The state after reset meets the state invariant, and the engine invariant for the empty message. -/
def Obligations.ResetMeetsTheInvariants : Prop :=
  StateWf State.reset ∧ EngineInv State.reset []

/-- Every step keeps the state invariant, whatever travels on the ports and buses: `BLEN` at most 136, `RI` at most 24, `RESP`
one of its two codes. -/
def Obligations.EveryStepKeepsTheStateInvariant : Prop :=
  ∀ s t : State, StateWf s → step s = .next t → StateWf t

/-- The invariants (a) to (d) of 10_state.md section 8 (R41, which the spec marks as derived): from every state that meets
them for a message `m`, a step on any host action leaves a state that meets them for the message that action leaves. In
particular, once Finalized, `DIGEST` is `keccak256` of exactly the bytes delivered since the last INIT or reset. -/
def Obligations.EveryStepKeepsTheEngineInvariant : Prop :=
  ∀ (s t : State) (m : List Byte) (a : HostAction) (rest : List HostAction), EngineInv s m → s.pending = a :: rest →
    a.external = true → step s = .next t → EngineInv t (messageAfter a s.phase m) ∧ t.pending = rest

/-- The engine is never stuck (R177): from a state between commands, any stream of legal command words, resets and reads of
STATUS and RESP runs on for ever. -/
def Obligations.LegalStreamsNeverStop : Prop :=
  ∀ s : State, s.blen ≤ 135 →
    (∀ a ∈ s.pending, a = .reset ∨ a = .readStatus ∨ a = .readResp ∨ ∃ w ∈ legalExternalWords, a = .word .cmd w) →
    ∀ n, RunsOn n s

/-- R131 with R120, HASH m: from any state whatever, `INIT; UPDATE m; FINAL` and a read of DIGEST answers OK and hands back the
32 bytes of `keccak256(m)`, for every message of any length. -/
def Obligations.HashDeliversKeccak256 : Prop :=
  ∀ (s : State) (m : List Byte), ∃ t, hostHash m s = .next t ∧ t.hostRead = (keccak256 m).toList ∧
    t.digest = some (keccak256 m) ∧ t.phase = .finalized ∧ t.resp = respOk ∧ t.pending = s.pending

/-- Incremental and one-shot equivalence (42_engine.md R133, which the spec marks as derived): after INIT, any interleaving of
UPDZ with the UPDB commands of a message, then FINAL, leaves `keccak256` of the message; so does any way of splitting it into
UPDATE chunks, empty ones included. -/
def Obligations.EveryChunkingGivesTheSameDigest : Prop :=
  (∀ (s : State) (is : List Instr) (m : List Byte), (∀ i ∈ is, i = .updz ∨ ∃ b, i = .updb b) →
    is.filterMap (fun i => if i = .updz then none else some i.imm8) = m →
    ∃ t, issueAll (.init :: is ++ [.final]) s = .next t ∧ t.digest = some (keccak256 m) ∧ t.phase = .finalized) ∧
  (∀ (s : State) (chunks : List (List Byte)),
    ∃ t, issueAll (.init :: chunks.flatMap updateInstrs ++ [.final]) s = .next t ∧
      t.digest = some (keccak256 chunks.flatten) ∧ t.phase = .finalized)

/-- An INIT or a reset makes the history irrelevant (what R135 says of `DIGEST`, said of everything visible). Two instances in any two states, given INIT (or reset) and then the
same actions (of whatever kind), stop in the same way or go on with the same STATUS, RESP, DIGEST, lanes and buffer. -/
def Obligations.InitForgetsTheHistory : Prop :=
  ∀ (s u : State) (a : HostAction) (as : List HostAction) (n : Nat), (a = .reset ∨ a = .word .cmd (encode .init)) →
    (∃ t v, run (n + 1) { s with pending := a :: as } = .next t ∧ run (n + 1) { u with pending := a :: as } = .next v ∧
      t.visible = v.visible ∧ t.lanes = v.lanes ∧ t.buf = v.buf ∧ t.pending = v.pending) ∨
    (∃ r, run (n + 1) { s with pending := a :: as } = .refused r ∧ run (n + 1) { u with pending := a :: as } = .refused r)

/-- R66: instances do not interact. A step of one leaves every other as it was, and the steps of two different instances give
the same result in either order. -/
def Obligations.InstancesDoNotInteract : Prop :=
  ∀ (n : Nat) (es : Vector State n) (j k : Fin n) (s t : State), j ≠ k → step es[j] = .next s → step es[k] = .next t →
    ∃ fs gs hs : Vector State n, stepInstance j es = .next fs ∧ fs[j] = s ∧ (∀ l : Fin n, l ≠ j → fs[l] = es[l]) ∧
      stepInstance k es = .next gs ∧ stepInstance k fs = .next hs ∧ stepInstance j gs = .next hs

/-! ### Tables and the host's rendering -/

/-- R24 and R25 as far as they state facts beyond the entries: only bits 0, 1, 3, 7, 15, 31 and 63 of a round constant are
ever set, the two repeats are right, the rotation offsets are pairwise distinct, in 0..62, and 0 for lane (0,0). -/
def Obligations.ConstantTables : Prop :=
  (∀ (r : Fin 24) (z : Fin 64), Config.rc[r].getLsbD z.val = true → z.val ∈ [0, 1, 3, 7, 15, 31, 63]) ∧
  Config.rc[5] = Config.rc[22] ∧ Config.rc[6] = Config.rc[20] ∧
  (∀ i j : Fin 25, Config.rot[i] = Config.rot[j] → i = j) ∧ (∀ i : Fin 25, Config.rot[i] ≤ 62) ∧ Config.rot[0] = 0

/-- R137, TOHEX (host-side): twice as long; character 2k is the digit of the high nibble of byte k, character 2k+1 that of the
low nibble; only lowercase hexadecimal digits occur; FROMHEX is its inverse. -/
def Obligations.ToHexRendersEachByte : Prop :=
  ∀ bytes : List Byte, (toHexChars bytes).length = 2 * bytes.length ∧
    (∀ (k : Nat) (v : Byte), bytes[k]? = some v →
      (toHexChars bytes)[2 * k]? = "0123456789abcdef".toList[v.toNat / 16]? ∧
      (toHexChars bytes)[2 * k + 1]? = "0123456789abcdef".toList[v.toNat % 16]?) ∧
    (∀ c ∈ toHexChars bytes, c ∈ "0123456789abcdef".toList) ∧
    fromHexChars (toHexChars bytes) = some bytes ∧ (toHex bytes).toList = toHexChars bytes

/-! ### PERMUTE as one function, and reads of some bytes of DIGEST -/

/-- PERMUTE completes from every state: the lanes become `ROUND 23 ∘ ... ∘ ROUND 0` of the lanes, the composition R101 allows
as a definition (`keccakF`), and nothing else of what the spec gives the machine changes but the scratch `RI`, of which
nothing is claimed. -/
def Obligations.PermuteCompletesAsKeccakF : Prop :=
  ∀ s : State, ∃ t, exec .permute s = .next t ∧ t.lanes = keccakF s.lanes ∧ t.buf = s.buf ∧ t.phase = s.phase ∧
    t.digest = s.digest ∧ t.resp = s.resp ∧ t.pending = s.pending ∧ t.hostRead = s.hostRead

/-- A host read of DIGEST takes any of the 32 bytes (R56): those of the indices asked for, in that order, while Finalized,
changing nothing of the engine; with all 32 indices it hands back what the read of the whole register does; while Absorbing it
is refused. How a read appears in a step is the model's choice (log entry 6). -/
def Obligations.ReadsOfSomeDigestBytes : Prop :=
  ∀ (s : State) (rest : List HostAction) (ks : List (Fin 32)), s.pending = .readDigestBytes ks :: rest →
    (∀ d : DigestBytes, s.phase = .finalized → s.digest = some d →
      ∃ bytes : List Byte, step s = .next { s with pending := rest, hostRead := bytes } ∧ bytes.length = ks.length ∧
        (∀ (n : Nat) (k : Fin 32), ks[n]? = some k → bytes[n]? = some d[k]) ∧
        (ks = List.finRange 32 → step { s with pending := .readDigest :: rest } = step s)) ∧
    (s.phase = .absorbing → step s = .refused .digestHasNoValue)
end

