-- ==== Sys2Proof/Laws/Bytes.lean ====
section
/-! SUPPORT. Lengths of padded tails and messages, and the size of a little-endian value. -/

namespace Sys2Proof.Machine

theorem leNat_lt (s : List Byte) : leNat s < 256 ^ s.length := by
  induction s with
  | nil => simp [leNat]
  | cons b bs ih =>
    have hb := b.isLt
    simp only [leNat, List.length_cons, pow_succ]
    omega

/-- PADBLK always yields one whole block. -/
theorem padTail_length (t : List Byte) (h : t.length ≤ 135) : (padTail t).length = 136 := by
  unfold padTail
  split <;> simp <;> omega

end Sys2Proof.Machine
end

