-- ==== Sys2Proof/Laws/Decode.lean ====
section
/-! SUPPORT. The fields of a word, and the words of each format. -/

namespace Sys2Proof

/-- A word is its three fields. -/
theorem word_ext {w v : CmdWord} (hb : blkOf w = blkOf v) (hf : fnOf w = fnOf v) (hi : imm8Of w = imm8Of v) : w = v := by
  apply BitVec.eq_of_getLsbD_eq
  intro i hi16
  by_cases h8 : i < 8
  · have := congrArg (fun x => BitVec.getLsbD x i) hi
    simpa [imm8Of, h8] using this
  · by_cases h12 : i < 12
    · have := congrArg (fun x => BitVec.getLsbD x (i - 8)) hf
      have e : 8 + (i - 8) = i := by omega
      simpa [fnOf, e, show i - 8 < 4 by omega] using this
    · have := congrArg (fun x => BitVec.getLsbD x (i - 12)) hb
      have e : 12 + (i - 12) = i := by omega
      simpa [blkOf, e, show i - 12 < 4 by omega] using this

theorem imm8Of_or_setWidth (m : CmdWord) (b : Byte) (h : imm8Of m = 0) : imm8Of (m ||| b.setWidth 16) = b := by
  apply BitVec.eq_of_getLsbD_eq
  intro i hi
  have := congrArg (fun x => BitVec.getLsbD x i) h
  simp only [imm8Of, BitVec.getLsbD_extractLsb', hi, decide_true, Nat.zero_add, Bool.true_and] at this ⊢
  rw [BitVec.getLsbD_or, this]
  simp [show i < 16 by omega]

theorem blkOf_or_setWidth (m : CmdWord) (b : Byte) : blkOf (m ||| b.setWidth 16) = blkOf m := by
  apply BitVec.eq_of_getLsbD_eq
  intro i hi
  simp only [blkOf, BitVec.getLsbD_extractLsb', hi, decide_true, Bool.true_and, BitVec.getLsbD_or, BitVec.getLsbD_setWidth]
  rw [BitVec.getLsbD_of_ge b (12 + i) (by omega)]
  simp

theorem fnOf_or_setWidth (m : CmdWord) (b : Byte) : fnOf (m ||| b.setWidth 16) = fnOf m := by
  apply BitVec.eq_of_getLsbD_eq
  intro i hi
  simp only [fnOf, BitVec.getLsbD_extractLsb', hi, decide_true, Bool.true_and, BitVec.getLsbD_or, BitVec.getLsbD_setWidth]
  rw [BitVec.getLsbD_of_ge b (8 + i) (by omega)]
  simp

/-- The three fields of an encoded instruction: its row's block and function, and its operand. -/
theorem fields_encode (i : Instr) :
    blkOf (encode i) = blkOf i.row.matchBits ∧ fnOf (encode i) = fnOf i.row.matchBits ∧ imm8Of (encode i) = i.imm8 :=
  ⟨blkOf_or_setWidth _ _, fnOf_or_setWidth _ _, imm8Of_or_setWidth _ _ (by cases i <;> simp only [Instr.row] <;> decide)⟩

end Sys2Proof
end

