-- ==== Sys2Proof/Laws/Lanes.lean ====
section
/-! SUPPORT. Reading a lane back from lanes that were built from a function, and the coordinates of a lane index. -/

namespace Sys2Proof.Machine

theorem laneOfList_eq_getElem : ∀ (l : List Lane) (i : Nat) (h : i < l.length), laneOfList l i = l[i]
  | [], _, h => absurd h (Nat.not_lt_zero _)
  | _ :: _, 0, _ => rfl
  | _ :: as, i + 1, h => laneOfList_eq_getElem as i (Nat.lt_of_succ_lt_succ h)

/-- `lane` is the vector's own reading. -/
theorem lane_eq_getElem (A : Lanes) (i : Nat) (h : i < 25) : lane A i = A[i] := by
  unfold lane
  rw [laneOfList_eq_getElem _ _ (by simpa using h)]
  simp

theorem tabulate_getElem (f : Nat → Lane) (i : Nat) (h : i < 25) : (tabulate f)[i] = f i := by
  interval_cases i <;> rfl

theorem lane_tabulate (f : Nat → Lane) (i : Nat) (h : i < 25) : lane (tabulate f) i = f i := by
  rw [lane_eq_getElem _ _ h, tabulate_getElem f i h]

theorem laneIndex_lt (x y : Nat) : laneIndex x y < 25 := by
  unfold laneIndex; omega

/-- Building by coordinates and reading by coordinates. -/
theorem laneXY_tabulateXY (f : Nat → Nat → Lane) (x y : Nat) : laneXY (tabulateXY f) x y = f (x % 5) (y % 5) := by
  unfold laneXY tabulateXY
  rw [lane_tabulate _ _ (laneIndex_lt x y)]
  unfold laneIndex
  congr 1 <;> omega

/-- Two lane states are equal when every lane is. -/
theorem lanes_ext {A B : Lanes} (h : ∀ i, i < 25 → lane A i = lane B i) : A = B := by
  refine Vector.ext fun i hi => ?_
  rw [← lane_eq_getElem A i hi, ← lane_eq_getElem B i hi, h i hi]

theorem zeroLanes_eq_replicate : zeroLanes = Vector.replicate 25 0 :=
  lanes_ext fun i h => by rw [zeroLanes, lane_tabulate _ _ h, lane_eq_getElem _ _ h, Vector.getElem_replicate]

/-- Lane `i` of the absorbed block's XOR: the rate lanes take the block's lane, the capacity lanes stay. -/
theorem lane_xorBlock (A : Lanes) (P : List Byte) (i : Nat) (h : i < 25) :
    lane (xorBlock A P) i = if i < 17 then lane A i ^^^ le64 (slice P (8 * i) 8) else lane A i := by
  rw [xorBlock, lane_tabulate _ _ h]

/-- Byte `k` of the squeezed digest. -/
theorem squeezeBytes_getElem (A : Lanes) (k : Nat) (h : k < 32) :
    (squeezeBytes A)[k] = laneByte (lane A (k / 8)) (k % 8) := by
  simp [squeezeBytes]

/-- XOR of a block looks at its first 136 bytes only. -/
theorem xorBlock_take (A : Lanes) (P : List Byte) : xorBlock A (P.take 136) = xorBlock A P := by
  refine lanes_ext fun i h => ?_
  rw [lane_xorBlock _ _ _ h, lane_xorBlock _ _ _ h]
  split
  · rename_i h17
    have hs : slice (P.take 136) (8 * i) 8 = slice P (8 * i) 8 := by
      unfold slice
      rw [List.drop_take, List.take_take]
      congr 1
      omega
    rw [hs]
  · rfl

end Sys2Proof.Machine
end

