-- ==== Sys2Proof/Laws/State.lean ====
section
/-! SUPPORT. One lemma per field per update of the state: what each named update leaves and writes, true by rfl. -/

namespace Sys2Proof.Machine
variable (s : State) (f : Lanes → Lanes) (bytes : List Byte)

@[simp] theorem State.respondOk_lanes : s.respondOk.lanes = s.lanes := rfl
@[simp] theorem State.respondOk_ri : s.respondOk.ri = s.ri := rfl
@[simp] theorem State.respondOk_buf : s.respondOk.buf = s.buf := rfl
@[simp] theorem State.respondOk_phase : s.respondOk.phase = s.phase := rfl
@[simp] theorem State.respondOk_digest : s.respondOk.digest = s.digest := rfl
@[simp] theorem State.respondOk_resp : s.respondOk.resp = respOk := rfl
@[simp] theorem State.respondOk_pending : s.respondOk.pending = s.pending := rfl
@[simp] theorem State.respondOk_hostRead : s.respondOk.hostRead = s.hostRead := rfl

@[simp] theorem State.raiseInvalidState_lanes : s.raiseInvalidState.lanes = s.lanes := rfl
@[simp] theorem State.raiseInvalidState_ri : s.raiseInvalidState.ri = s.ri := rfl
@[simp] theorem State.raiseInvalidState_buf : s.raiseInvalidState.buf = s.buf := rfl
@[simp] theorem State.raiseInvalidState_phase : s.raiseInvalidState.phase = s.phase := rfl
@[simp] theorem State.raiseInvalidState_digest : s.raiseInvalidState.digest = s.digest := rfl
@[simp] theorem State.raiseInvalidState_resp : s.raiseInvalidState.resp = respInvalidState := rfl
@[simp] theorem State.raiseInvalidState_pending : s.raiseInvalidState.pending = s.pending := rfl
@[simp] theorem State.raiseInvalidState_hostRead : s.raiseInvalidState.hostRead = s.hostRead := rfl

@[simp] theorem State.mapLanes_lanes : (s.mapLanes f).lanes = f s.lanes := rfl
@[simp] theorem State.mapLanes_ri : (s.mapLanes f).ri = s.ri := rfl
@[simp] theorem State.mapLanes_buf : (s.mapLanes f).buf = s.buf := rfl
@[simp] theorem State.mapLanes_phase : (s.mapLanes f).phase = s.phase := rfl
@[simp] theorem State.mapLanes_digest : (s.mapLanes f).digest = s.digest := rfl
@[simp] theorem State.mapLanes_resp : (s.mapLanes f).resp = s.resp := rfl
@[simp] theorem State.mapLanes_pending : (s.mapLanes f).pending = s.pending := rfl
@[simp] theorem State.mapLanes_hostRead : (s.mapLanes f).hostRead = s.hostRead := rfl

@[simp] theorem State.permute_lanes : s.permute.lanes = (permuteLoop 24 s.lanes 0).1 := rfl
@[simp] theorem State.permute_ri : s.permute.ri = (permuteLoop 24 s.lanes 0).2 := rfl
@[simp] theorem State.permute_buf : s.permute.buf = s.buf := rfl
@[simp] theorem State.permute_phase : s.permute.phase = s.phase := rfl
@[simp] theorem State.permute_digest : s.permute.digest = s.digest := rfl
@[simp] theorem State.permute_resp : s.permute.resp = s.resp := rfl
@[simp] theorem State.permute_pending : s.permute.pending = s.pending := rfl
@[simp] theorem State.permute_hostRead : s.permute.hostRead = s.hostRead := rfl

@[simp] theorem State.clear_lanes : s.clear.lanes = zeroLanes := rfl
@[simp] theorem State.clear_ri : s.clear.ri = s.ri := rfl
@[simp] theorem State.clear_buf : s.clear.buf = [] := rfl
@[simp] theorem State.clear_phase : s.clear.phase = s.phase := rfl
@[simp] theorem State.clear_digest : s.clear.digest = s.digest := rfl
@[simp] theorem State.clear_resp : s.clear.resp = s.resp := rfl
@[simp] theorem State.clear_pending : s.clear.pending = s.pending := rfl
@[simp] theorem State.clear_hostRead : s.clear.hostRead = s.hostRead := rfl

@[simp] theorem State.squeeze_lanes : s.squeeze.lanes = s.lanes := rfl
@[simp] theorem State.squeeze_ri : s.squeeze.ri = s.ri := rfl
@[simp] theorem State.squeeze_buf : s.squeeze.buf = s.buf := rfl
@[simp] theorem State.squeeze_phase : s.squeeze.phase = s.phase := rfl
@[simp] theorem State.squeeze_digest : s.squeeze.digest = some (squeezeBytes s.lanes) := rfl
@[simp] theorem State.squeeze_resp : s.squeeze.resp = s.resp := rfl
@[simp] theorem State.squeeze_pending : s.squeeze.pending = s.pending := rfl
@[simp] theorem State.squeeze_hostRead : s.squeeze.hostRead = s.hostRead := rfl

@[simp] theorem State.handBack_lanes : (s.handBack bytes).lanes = s.lanes := rfl
@[simp] theorem State.handBack_ri : (s.handBack bytes).ri = s.ri := rfl
@[simp] theorem State.handBack_buf : (s.handBack bytes).buf = s.buf := rfl
@[simp] theorem State.handBack_phase : (s.handBack bytes).phase = s.phase := rfl
@[simp] theorem State.handBack_digest : (s.handBack bytes).digest = s.digest := rfl
@[simp] theorem State.handBack_resp : (s.handBack bytes).resp = s.resp := rfl
@[simp] theorem State.handBack_pending : (s.handBack bytes).pending = s.pending := rfl
@[simp] theorem State.handBack_hostRead : (s.handBack bytes).hostRead = bytes := rfl

@[simp] theorem State.assertReset_lanes : s.assertReset.lanes = Vector.replicate 25 0 := rfl
@[simp] theorem State.assertReset_ri : s.assertReset.ri = 0 := rfl
@[simp] theorem State.assertReset_buf : s.assertReset.buf = [] := rfl
@[simp] theorem State.assertReset_phase : s.assertReset.phase = .absorbing := rfl
@[simp] theorem State.assertReset_digest : s.assertReset.digest = none := rfl
@[simp] theorem State.assertReset_resp : s.assertReset.resp = 0 := rfl
@[simp] theorem State.assertReset_pending : s.assertReset.pending = s.pending := rfl
@[simp] theorem State.assertReset_hostRead : s.assertReset.hostRead = [] := rfl

end Sys2Proof.Machine
end

