-- ==== Sys2Proof/Laws/Ops.lean ====
section
/-! SUPPORT. One lemma per shared operation, saying once everything it does: what it answers where its precondition holds,
what it answers elsewhere, and (for the operations that can stop) what follows from a next state. -/

namespace Sys2Proof.Machine

/-! ### Sequencing -/

@[simp] theorem andThen_next (s : State) (f : State → Result) : andThen (.next s) f = f s := rfl
@[simp] theorem andThen_refused (r : Refusal) (f : State → Result) : andThen (.refused r) f = .refused r := rfl

theorem andThen_eq_next {o : Result} {f : State → Result} {t : State} (h : andThen o f = .next t) :
    ∃ s, o = .next s ∧ f s = .next t := by
  cases o with
  | next s => exact ⟨s, rfl, h⟩
  | fault r => cases h
  | refused r => cases h

/-! ### The engine's check and the round index -/

theorem whileAbsorbing_finalized {s : State} (h : s.phase = .finalized) (f : State → Result) :
    whileAbsorbing s f = .next s.raiseInvalidState := by
  rw [whileAbsorbing, h]

theorem whileAbsorbing_absorbing {s : State} (h : s.phase = .absorbing) (f : State → Result) :
    whileAbsorbing s f = f s := by
  rw [whileAbsorbing, h]

theorem roundIndex_of_lt (imm : Byte) (h : imm.toNat < 24) : roundIndex imm = some ⟨imm.toNat, h⟩ := by
  rw [roundIndex, dif_pos h]

theorem roundIndex_of_ge (imm : Byte) (h : 24 ≤ imm.toNat) : roundIndex imm = none := by
  rw [roundIndex, dif_neg (by omega)]

/-! ### The loop of PERMUTE -/

/-- One turn of the loop, while `RI` is below 24. -/
theorem permuteLoop_succ (n : Nat) (A : Lanes) (ri : BitVec 5) (h : ri.toNat < 24) :
    permuteLoop (n + 1) A ri = permuteLoop n (roundLanes ⟨ri.toNat, h⟩ A) (ri + 1) := by
  rw [permuteLoop, dif_pos h]

/-! ### The sponge unit's operations -/

theorem putByte_of_le (b : Byte) (s : State) (h : s.blen ≤ 135) :
    s.putByte b = .next { s with buf := s.buf ++ [b] } := by
  rw [State.putByte, if_pos h]

theorem putByte_of_gt (b : Byte) (s : State) (h : 135 < s.blen) : s.putByte b = .refused .putbBufferFull := by
  rw [State.putByte, if_neg (by omega)]

theorem padBlock_of_le (s : State) (h : s.blen ≤ 135) : s.padBlock = .next { s with buf := padTail s.buf } := by
  rw [State.padBlock, if_pos h]

theorem padBlock_of_gt (s : State) (h : 135 < s.blen) : s.padBlock = .refused .padblkBufferFull := by
  rw [State.padBlock, if_neg (by omega)]

theorem absorbBlock_of_eq (s : State) (h : s.blen = 136) :
    s.absorbBlock = .next { s with
      lanes := (permuteLoop 24 (xorBlock s.lanes s.buf) 0).1
      ri := (permuteLoop 24 (xorBlock s.lanes s.buf) 0).2
      buf := [] } := by
  rw [State.absorbBlock, if_pos h]
  rfl

theorem absorbBlock_of_ne (s : State) (h : s.blen ≠ 136) : s.absorbBlock = .refused .absorbBufferNotFull := by
  rw [State.absorbBlock, if_neg h]

/-- What a byte does to the state when UPDB takes it: buffered, or the block it fills absorbed. -/
theorem absorbIfFull_of_ne (s : State) (h : s.blen ≠ 136) : absorbIfFull s = .next s := by
  rw [absorbIfFull, if_neg h]

theorem absorbIfFull_of_eq (s : State) (h : s.blen = 136) : absorbIfFull s = s.absorbBlock := by
  rw [absorbIfFull, if_pos h]

/-! ### Reads of DIGEST -/

theorem readFromDigest_of_some (bytes : DigestBytes → List Byte) {s : State} {d : DigestBytes}
    (hp : s.phase = .finalized) (hd : s.digest = some d) : s.readFromDigest bytes = .next (s.handBack (bytes d)) := by
  rw [State.readFromDigest, hp, hd]

theorem readFromDigest_of_absorbing (bytes : DigestBytes → List Byte) {s : State} (h : s.phase = .absorbing) :
    s.readFromDigest bytes = .refused .digestHasNoValue := by
  rw [State.readFromDigest, h]

theorem readFromDigest_eq_next {bytes : DigestBytes → List Byte} {s t : State} (h : s.readFromDigest bytes = .next t) :
    ∃ d, s.phase = .finalized ∧ s.digest = some d ∧ t = s.handBack (bytes d) := by
  rw [State.readFromDigest] at h
  split at h <;> cases h
  exact ⟨_, ‹_›, ‹_›, rfl⟩

end Sys2Proof.Machine
end

