-- ==== Sys2Proof/Laws/PerInstr.lean ====
section
/-! SUPPORT. Statements for all instructions, one lemma per constructor: an encoded instruction selects its own row of the
opcode map (30_encoding.md R74). -/

namespace Sys2Proof.Laws.SelectsItsRow

/-- The word of a well-formed instruction is selected by the instruction's own row. -/
def Statement (i : Instr) : Prop := i.wf = true → i.row.selects (encode i) = true

/-- A word with the mask 0xFF00 is compared in its upper byte only, so the operand does not matter. -/
theorem selects_of_upper (m : CmdWord) (b : Byte) (h : m &&& 0xFF00 = m) : (m ||| b.setWidth 16) &&& 0xFF00 = m := by
  apply BitVec.eq_of_getLsbD_eq
  intro i hi
  have hm := congrArg (fun x => BitVec.getLsbD x i) h
  simp only [BitVec.getLsbD_and, BitVec.getLsbD_or, BitVec.getLsbD_setWidth] at hm ⊢
  by_cases h8 : i < 8
  · have : BitVec.getLsbD (0xFF00 : CmdWord) i = false := by interval_cases i <;> decide
    rw [this] at hm ⊢
    simpa using hm
  · rw [BitVec.getLsbD_of_ge b i (by omega)]
    simpa using hm

theorem init : Statement .init := fun _ => by decide
theorem updb (b : Byte) : Statement (.updb b) := fun _ => by
  simp [OpcodeRow.selects, Instr.row, encode, Instr.imm8]
  exact decide_eq_true (selects_of_upper 0x0100 b (by decide))
theorem updz : Statement .updz := fun _ => by decide
theorem final : Statement .final := fun _ => by decide
theorem clrst : Statement .clrst := fun _ => by decide
theorem putb (b : Byte) : Statement (.putb b) := fun _ => by
  simp [OpcodeRow.selects, Instr.row, encode, Instr.imm8]
  exact decide_eq_true (selects_of_upper 0x1100 b (by decide))
theorem padblk : Statement .padblk := fun _ => by decide
theorem absorb : Statement .absorb := fun _ => by decide
theorem squeeze : Statement .squeeze := fun _ => by decide
theorem theta : Statement .theta := fun _ => by decide
theorem rho : Statement .rho := fun _ => by decide
theorem pi : Statement .pi := fun _ => by decide
theorem chi : Statement .chi := fun _ => by decide
theorem iota (r : Byte) : Statement (.iota r) := fun h => by
  have hi := (fields_encode (.iota r)).2.2
  simp only [Instr.wf, decide_eq_true_eq] at h
  simp [OpcodeRow.selects, hi, Instr.imm8, h]
  exact selects_of_upper 0x2400 r (by decide)
theorem round (r : Byte) : Statement (.round r) := fun h => by
  have hi := (fields_encode (.round r)).2.2
  simp only [Instr.wf, decide_eq_true_eq] at h
  simp [OpcodeRow.selects, hi, Instr.imm8, h]
  exact selects_of_upper 0x2500 r (by decide)
theorem permute : Statement .permute := fun _ => by decide

end Sys2Proof.Laws.SelectsItsRow
end

