-- ==== Sys2Proof/Tests/Slice0.lean ====
section
/-! SUPPORT. The model's own tests. Expected values are the spec's: 95_test_vectors.md (V<n>, T<n>, P<n>), the worked
examples of the rules, and words written out from 30_encoding.md R74. -/

namespace Sys2Proof.Tests
open Sys2Proof Sys2Proof.Machine

/- One theorem after the other: checked side by side, the evaluations below each hold a thread and its stack. -/
set_option Elab.async false

/-- The operation answers a next state of which `p` holds. -/
def answers (o : Result) (p : State → Bool) : Bool :=
  match o with
  | .next s => p s
  | .fault _ => false
  | .refused _ => false

/-- The operation is refused for the reason `r`. -/
def refusedWith (o : Result) (r : Refusal) : Bool :=
  match o with
  | .next _ => false
  | .fault _ => false
  | .refused r' => r' == r

/-- The reset state with other lanes. -/
def withLanes (A : Lanes) : State := { State.reset with lanes := A }

/-- The reset state with other buffered bytes. -/
def withBuf (B : List Byte) : State := { State.reset with buf := B }

/-- A finalized state (its digest is 32 bytes 0x5A). -/
def finalizedState : State :=
  { State.reset with phase := .finalized, digest := some (Vector.replicate 32 0x5A), resp := 0x00 }

/-- Lanes whose lane i is the byte `bs[i]` repeated eight times, as 95_test_vectors.md T2 and T6 show them. -/
def byteLanes (bs : List Nat) : Lanes := tabulate fun i => BitVec.ofNat 64 (0x0101010101010101 * bs.getD i 0)

/-- The five lanes of row `y`. -/
def rowOf (A : Lanes) (y : Nat) : List Lane := (List.range 5).map fun x => laneXY A x y

/-- The state S of T2. -/
def stateS : List Nat := (List.range 25).map (· + 1)

/-! ### WellFormed: the one check, refused and passed -/

theorem test_wf_refuses_iota_24 : (Instr.iota 24).wf = false := by decide
theorem test_wf_refuses_round_255 : (Instr.round 255).wf = false := by decide
theorem test_wf_admits_iota_23 : (Instr.iota 23).wf = true := by decide

/-! ### Decode: a word of every constructor, written out bit by bit from R74 -/

theorem test_decode_init : decode 0b0000_0000_00000000 = .ok .init := by decide
theorem test_decode_updb : decode 0b0000_0001_01100001 = .ok (.updb 0x61) := by decide
theorem test_decode_updz : decode 0b0000_0010_00000000 = .ok .updz := by decide
theorem test_decode_final : decode 0b0000_0011_00000000 = .ok .final := by decide
theorem test_decode_clrst : decode 0b0001_0000_00000000 = .ok .clrst := by decide
theorem test_decode_putb : decode 0b0001_0001_10101010 = .ok (.putb 0xAA) := by decide
theorem test_decode_padblk : decode 0b0001_0010_00000000 = .ok .padblk := by decide
theorem test_decode_absorb : decode 0b0001_0011_00000000 = .ok .absorb := by decide
theorem test_decode_squeeze : decode 0b0001_0100_00000000 = .ok .squeeze := by decide
theorem test_decode_theta : decode 0b0010_0000_00000000 = .ok .theta := by decide
theorem test_decode_rho : decode 0b0010_0001_00000000 = .ok .rho := by decide
theorem test_decode_pi : decode 0b0010_0010_00000000 = .ok .pi := by decide
theorem test_decode_chi : decode 0b0010_0011_00000000 = .ok .chi := by decide
theorem test_decode_iota : decode 0b0010_0100_00010111 = .ok (.iota 23) := by decide
theorem test_decode_round : decode 0b0010_0101_00010111 = .ok (.round 23) := by decide
theorem test_decode_permute : decode 0b0010_0110_00000000 = .ok .permute := by decide

/-- The reserved words of T18. -/
theorem test_decode_reserved :
    decode 0x0001 = .error .immNotZero ∧ decode 0x0380 = .error .immNotZero ∧ decode 0x0400 = .error .noSuchFunction ∧
    decode 0x1500 = .error .noSuchFunction ∧ decode 0x2418 = .error .roundIndexTooLarge ∧
    decode 0x2700 = .error .noSuchFunction ∧ decode 0x3000 = .error .noSuchBlock ∧ decode 0xFFFF = .error .noSuchBlock := by
  decide

/-- Words of the SPG and PRM are reserved at the external port (T18). -/
theorem test_decode_external_port :
    decodeAt .cmd 0x1000 = .error .notOfThisPort ∧ decodeAt .cmd 0x11AA = .error .notOfThisPort ∧
    decodeAt .cmd 0x2600 = .error .notOfThisPort := by decide

theorem test_decode_table_word : decodeTableWord 16 0x2517 = some (.round 0x17) := by decide
theorem test_encode_round_23 : encode (.round 23) = 0x2517 := by decide

/-! ### The tables: the generating rules G1 and G2 of 93_implementation_defined.md -/

/-- One step of the register of G1. -/
def lfsrStep (r : Nat) : Nat := ((r * 2) ^^^ (if r / 128 = 1 then 0x71 else 0)) % 256

/-- The bits of G1's round constant from a register state: bit `2^j - 1` for j = 0..6. -/
def lfsrConstant (start : Nat) : Nat :=
  ((List.range 7).foldl (fun (p : Nat × Nat) j => (p.1 + (p.2 % 2) * 2 ^ (2 ^ j - 1), lfsrStep p.2)) (0, start)).1

theorem test_rc_generated_by_G1 :
    Config.rc.toList.map BitVec.toNat = (List.range 24).map fun r => lfsrConstant (lfsrStep^[7 * r] 1) := by
  decide +kernel

/-- The walk of G2: after t moves from (1, 0), the lane whose offset is `(t+1)*(t+2)/2 mod 64`. -/
def rhoWalk (t : Nat) : Nat × Nat := (fun (p : Nat × Nat) => (p.2, (2 * p.1 + 3 * p.2) % 5))^[t] (1, 0)

theorem test_rot_generated_by_G2 :
    ∀ t < 24, Config.rot.toList[(rhoWalk t).1 + 5 * (rhoWalk t).2]? = some ((t + 1) * (t + 2) / 2 % 64) := by
  decide +kernel

/-! ### The permutation core -/

/-- T1, second case: the rotation by 1 wraps. -/
theorem test_theta_wraps :
    answers (exec .theta (withLanes (tabulate fun i => if i = 0 then 0x8000000000000000 else 0))) (fun t =>
      lane t.lanes 6 == 0x8000000000000000 && lane t.lanes 4 == 1 && lane t.lanes 24 == 1 && lane t.lanes 2 == 0 &&
      lane t.lanes 0 == 0x8000000000000000) = true := by decide +kernel

/-- T2. -/
theorem test_theta_S :
    answers (exec .theta (withLanes (byteLanes stateS))) (fun t => t.lanes == byteLanes
      [0x10, 0x0D, 0x1D, 0x1D, 0x1F, 0x17, 0x08, 0x16, 0x10, 0x10, 0x1A, 0x03, 0x13, 0x17, 0x15,
       0x01, 0x1E, 0x0C, 0x0A, 0x0E, 0x04, 0x19, 0x09, 0x01, 0x03]) = true := by decide +kernel

/-- T3. -/
theorem test_rho_ones :
    answers (exec .rho (withLanes (tabulate fun _ => 1))) (fun t => t.lanes == #v[
      0x0000000000000001, 0x0000000000000002, 0x4000000000000000, 0x0000000010000000, 0x0000000008000000,
      0x0000001000000000, 0x0000100000000000, 0x0000000000000040, 0x0080000000000000, 0x0000000000100000,
      0x0000000000000008, 0x0000000000000400, 0x0000080000000000, 0x0000000002000000, 0x0000008000000000,
      0x0000020000000000, 0x0000200000000000, 0x0000000000008000, 0x0000000000200000, 0x0000000000000100,
      0x0000000000040000, 0x0000000000000004, 0x2000000000000000, 0x0100000000000000, 0x0000000000004000]) = true := by
  decide +kernel

/-- T4: every lane but `A[0]` wraps. -/
theorem test_rho_wraps :
    answers (exec .rho (withLanes (tabulate fun _ => 0x8000000000000000))) (fun t =>
      lane t.lanes 0 == 0x8000000000000000 && lane t.lanes 1 == 1 && lane t.lanes 2 == 0x2000000000000000 &&
      lane t.lanes 24 == 0x0000000000002000) = true := by decide +kernel

/-- T5. -/
theorem test_pi_moves :
    answers (exec .pi (withLanes (tabulate fun i => BitVec.ofNat 64 i))) (fun t => t.lanes.toList.map BitVec.toNat ==
      [0, 6, 12, 18, 24, 3, 9, 10, 16, 22, 1, 7, 13, 19, 20, 4, 5, 11, 17, 23, 2, 8, 14, 15, 21]) = true := by
  decide +kernel

/-- T19: the row is read before it is written. -/
theorem test_chi_row :
    answers (exec .chi (withLanes (tabulate fun i => [0xFFFFFFFFFFFFFFFF, 0x0000000000000000, 0xFFFFFFFFFFFFFFFF,
        0x00000000FFFFFFFF, 0xAAAAAAAAAAAAAAAA].getD i 0))) (fun t => t.lanes.toList.take 5 ==
      [0x0000000000000000, 0x0000000000000000, 0x55555555FFFFFFFF, 0x55555555AAAAAAAA, 0xAAAAAAAAAAAAAAAA]) = true := by
  decide +kernel

/-- T6: CHI on the state after PI. -/
theorem test_chi_T6 :
    answers (exec .chi (withLanes (byteLanes
      [0x10, 0x80, 0x98, 0x41, 0xC0, 0xD1, 0x01, 0xD0, 0xC3, 0x21, 0x1A, 0x85, 0x2E, 0x0E, 0x10,
       0xF8, 0x71, 0x0C, 0x06, 0x01, 0x47, 0x08, 0x8A, 0x02, 0x64]))) (fun t => t.lanes == byteLanes
      [0x08, 0xC1, 0x18, 0x51, 0x40, 0x01, 0x02, 0xF0, 0x13, 0x21, 0x30, 0x85, 0x3E, 0x04, 0x95,
       0xF4, 0x73, 0x0D, 0xFE, 0x00, 0xC5, 0x08, 0xEE, 0x01, 0x6C]) = true := by decide +kernel

/-- T20. -/
theorem test_iota_23 :
    answers (exec (.iota 23) State.reset) (fun t => lane t.lanes 0 == 0x8000000080008008 && lane t.lanes 1 == 0) = true := by
  decide +kernel

/-- T20, on a lane of ones. -/
theorem test_iota_2 :
    answers (exec (.iota 2) (withLanes (tabulate fun _ => 0xFFFFFFFFFFFFFFFF))) (fun t =>
      lane t.lanes 0 == 0x7FFFFFFFFFFF7F75) = true := by decide +kernel

/-- T6: ROUND 0 on S. -/
theorem test_round_0_S :
    answers (exec (.round 0) (withLanes (byteLanes stateS))) (fun t => lane t.lanes 0 == 0x0808080808080809 &&
      t.lanes.toList.drop 1 == (byteLanes
      [0x08, 0xC1, 0x18, 0x51, 0x40, 0x01, 0x02, 0xF0, 0x13, 0x21, 0x30, 0x85, 0x3E, 0x04, 0x95,
       0xF4, 0x73, 0x0D, 0xFE, 0x00, 0xC5, 0x08, 0xEE, 0x01, 0x6C]).toList.drop 1) = true := by decide +kernel

/-- T7: PERMUTE of the all-zero state, every lane, row by row. -/
theorem test_permute_zero :
    answers (exec .permute State.reset) (fun t =>
      rowOf t.lanes 0 == [0xF1258F7940E1DDE7, 0x84D5CCF933C0478A, 0xD598261EA65AA9EE,
        0xBD1547306F80494D, 0x8B284E056253D057] &&
      rowOf t.lanes 1 == [0xFF97A42D7F8E6FD4, 0x90FEE5A0A44647C4, 0x8C5BDA0CD6192E76,
        0xAD30A6F71B19059C, 0x30935AB7D08FFC64] &&
      rowOf t.lanes 2 == [0xEB5AA93F2317D635, 0xA9A6E6260D712103, 0x81A57C16DBCF555F,
        0x43B831CD0347C826, 0x01F22F1A11A5569F] &&
      rowOf t.lanes 3 == [0x05E5635A21D9AE61, 0x64BEFEF28CC970F2, 0x613670957BC46611,
        0xB87C5A554FD00ECB, 0x8C3EE88A1CCF32C8] &&
      rowOf t.lanes 4 == [0x940C7922AE3A2614, 0x1841F924A2C509E4, 0x16F53526E70465C2,
        0x75F644E97F30A13B, 0xEAF1FF7B5CECA249]) = true := by
  decide +kernel

/-- T9: PERMUTE of S. -/
theorem test_permute_S :
    answers (exec .permute (withLanes (byteLanes stateS))) (fun t => lane t.lanes 0 == 0x2873BF6F520114E0 &&
      lane t.lanes 13 == 0xFC41E4AA6F31EFDF && lane t.lanes 24 == 0xF36814BE892FA7DD) = true := by decide +kernel

/-! ### The sponge unit -/

/-- R112: lanes and buffer. -/
theorem test_clrst :
    answers (exec .clrst { withBuf [0x78] with lanes := tabulate fun _ => 7 }) (fun t =>
      t.lanes == zeroLanes && t.buf == []) = true := by decide +kernel

/-- R113: a zero byte is data. -/
theorem test_putb : answers (exec (.putb 0x00) (withBuf [0x61])) (fun t => t.buf == [0x61, 0x00]) = true := by decide

/-- R113, U4: a full buffer takes no byte. -/
theorem test_putb_full : refusedWith (exec (.putb 1) (withBuf (List.replicate 136 0))) .putbBufferFull = true := by
  decide +kernel

/-- T12, r = 135: the single byte 0x81. -/
theorem test_padblk_135 :
    answers (exec .padblk (withBuf (List.replicate 135 0xAA))) (fun t =>
      t.blen == 136 && t.buf.drop 132 == [0xAA, 0xAA, 0xAA, 0x81]) = true := by decide +kernel

/-- T12, r = 134. -/
theorem test_padblk_134 :
    answers (exec .padblk (withBuf (List.replicate 134 0xAA))) (fun t =>
      t.blen == 136 && t.buf.drop 132 == [0xAA, 0xAA, 0x01, 0x80]) = true := by decide +kernel

/-- T15 step 2: ABSORB of 136 bytes 0xAA into zero lanes. -/
theorem test_absorb_aa :
    answers (exec .absorb (withBuf (List.replicate 136 0xAA))) (fun t => lane t.lanes 0 == 0x8B9BB942036FCB1F &&
      lane t.lanes 16 == 0x4E99CA8FDC67CFAE && lane t.lanes 24 == 0x3B469874AA4EA932 && t.buf == []) = true := by
  decide +kernel

/-- R116, U4: ABSORB with a buffer that is not full. -/
theorem test_absorb_not_full : refusedWith (exec .absorb State.reset) .absorbBufferNotFull = true := by decide

/-- R117: the example of the rule. -/
theorem test_squeeze :
    answers (exec .squeeze (withLanes (tabulate fun _ => 0x3C23F7860146D2C5))) (fun t =>
      t.digest.map (fun d => d.toList.take 9) == some [0xC5, 0xD2, 0x46, 0x01, 0x86, 0xF7, 0x23, 0x3C, 0xC5]) = true := by
  decide +kernel

/-! ### The engine -/

/-- T17: INIT leaves Finalized, and the digest loses its value. -/
theorem test_init :
    answers (exec .init finalizedState) (fun t => t.phase == .absorbing && t.digest == none && t.status == 0x00 &&
      t.resp == 0x00) = true := by decide +kernel

/-- R127, the example of the rule. -/
theorem test_updb :
    answers (exec (.updb 0x61) State.reset) (fun t => t.buf == [0x61] && t.blen == 1 && t.resp == 0x00) = true := by
  decide +kernel

/-- T15 step 2: the 136th byte is absorbed in the same command. -/
theorem test_updb_drains :
    answers (exec (.updb 0xAA) (withBuf (List.replicate 135 0xAA))) (fun t => t.blen == 0 &&
      lane t.lanes 0 == 0x8B9BB942036FCB1F && t.resp == 0x00 && t.digest == none) = true := by decide +kernel

/-- T17: UPDZ while Finalized. -/
theorem test_updz_invalid :
    answers (exec .updz finalizedState) (fun t => t == { finalizedState with resp := 0x01 }) = true := by decide +kernel

/-- R128: UPDZ while Absorbing overwrites an earlier code. -/
theorem test_updz_ok : answers (exec .updz { State.reset with resp := 0x01 }) (fun t => t == State.reset) = true := by
  decide +kernel

/-- V1, T10: the digest of the empty message, FINAL as the very first command after reset. -/
theorem test_final_empty :
    answers (exec .final State.reset) (fun t => t.status == 0x01 && t.resp == 0x00 &&
      t.digest.map (fun d => toHexChars d.toList) ==
        some (toHexChars [0xc5, 0xd2, 0x46, 0x01, 0x86, 0xf7, 0x23, 0x3c, 0x92, 0x7e, 0x7d, 0xb2, 0xdc, 0xc7, 0x03, 0xc0,
          0xe5, 0x00, 0xb6, 0x53, 0xca, 0x82, 0x27, 0x3b, 0x7b, 0xfa, 0xd8, 0x04, 0x5d, 0x85, 0xa4, 0x70])) = true := by
  decide +kernel

/-- V2, T11: FINAL with "abc" in the buffer. -/
theorem test_final_abc :
    answers (exec .final (withBuf [0x61, 0x62, 0x63])) (fun t => t.digest.map (fun d => d.toList) ==
      some [0x4e, 0x03, 0x65, 0x7a, 0xea, 0x45, 0xa9, 0x4f, 0xc7, 0xd4, 0x7b, 0xa8, 0x26, 0xc8, 0xd6, 0x67,
        0xc0, 0xd1, 0xe6, 0xe3, 0x3a, 0x64, 0xa0, 0x36, 0xec, 0x44, 0xf5, 0x8f, 0xa1, 0x2d, 0x6c, 0x45]) = true := by
  decide +kernel

/-! ### The step and the host's side -/

/-- R75: PERMUTE is refused at the external port and runs on its bus. -/
theorem test_step_port :
    refusedWith (step { State.reset with pending := [.word .cmd 0x2600] }) (.reservedWord .notOfThisPort) = true ∧
    answers (step (State.reset.withFetchWord 16 0x2400)) (fun t => lane t.lanes 0 == 1 && t.pending == []) = true := by
  decide +kernel

/-- U2: no digest before FINAL. -/
theorem test_step_digest_early :
    refusedWith (step { State.reset with pending := [.readDigest] }) .digestHasNoValue = true := by decide +kernel

/-- R56: single bytes of DIGEST, in the order asked for. -/
theorem test_step_digest_bytes :
    answers (step { finalizedState with digest := some (Vector.ofFn fun k => BitVec.ofNat 8 k.val),
                                        pending := [.readDigestBytes [31, 0]] }) (fun t =>
      t.hostRead == [0x1F, 0x00] && t.pending == []) = true := by decide +kernel

/-- The model's choice of log entry 15: an engine's word is refused on an internal bus. -/
theorem test_step_foreign_word :
    refusedWith (step { State.reset with pending := [.word .spgBus 0x0000] }) (.reservedWord .notOfThisPort) = true := by
  decide +kernel

/-- R137 and R81: rendering. -/
theorem test_to_hex : toHexChars [0xC5, 0x0D] = ['c', '5', '0', 'd'] := by decide
theorem test_from_hex : fromHexChars ['c', '5', '0', 'd'] = some [0xC5, 0x0D] := by decide
theorem test_asm_updb : asm (.updb 0xFF) = "UPDB 0xFF" := by decide +kernel
theorem test_to_hex_string : toHex [0xC5, 0x0D] = "c50d" := by decide +kernel
theorem test_asm_round : asm (.round 23) = "ROUND 23" := by decide +kernel

/-! ### Witnesses: concrete inputs that meet the hypotheses of a statement, at the boundaries of each clause -/

/-- A next state of the operation. -/
def stepsOn (o : Result) : Bool := answers o fun _ => true

/-- An absorbing state with `n` buffered bytes. -/
def filled (n : Nat) : State := withBuf (List.replicate n 0xAA)

/-- The reset state with actions pending. -/
def waiting (as : List HostAction) : State := { State.reset with pending := as }

theorem witness_DecoderFollowsTheOpcodeTable :
    decode 0x2417 = .ok (.iota 23) ∧ (Instr.iota 23).row ∈ opcodeTable ∧ (Instr.iota 23).row.selects 0x2417 = true := by decide
theorem witness_DecodeOfEncodeIsTheInstruction : (Instr.round 23).wf = true ∧ (Instr.updb 0xFF).wf = true := by decide
theorem witness_EncodeOfDecodeIsTheWord : decode 0x2517 = .ok (.round 23) := by decide
theorem witness_ReservedWordsAreRefused :
    decodeAt .cmd 0x2600 = .error .notOfThisPort ∧ decodeAt .cmd 0x0301 = .error .immNotZero ∧
    decodeAt .spgBus 0x1500 = .error .noSuchFunction ∧ decodeAt .prmBus 0x2418 = .error .roundIndexTooLarge ∧
    decodeAt .cmd 0x3000 = .error .noSuchBlock := by decide
theorem witness_PortsTakeTheirOwnBlockOnly :
    decodeAt .cmd 0x0300 = .ok .final ∧ decodeAt .spgBus 0x1400 = .ok .squeeze ∧ decodeAt .prmBus 0x2600 = .ok .permute := by
  decide
theorem witness_StepRunsTheDecodedInstruction :
    (waiting [.word .cmd 0x0300]).pending = .word .cmd 0x0300 :: [] ∧ decodeAt .cmd 0x0300 = .ok .final ∧
    (waiting [.word .cmd 0x0400]).pending = .word .cmd 0x0400 :: [] ∧ decodeAt .cmd 0x0400 = .error .noSuchFunction := by
  decide
theorem witness_PlacedWordIsRunNext : (Instr.iota 23).wf = true ∧ Instr.permute.wf = true := by decide
theorem witness_StepWaitsWhenNothingIsPending : State.reset.pending = [] := by decide
theorem witness_ReadsHaveNoSideEffect :
    (waiting [.readStatus]).pending = .readStatus :: [] ∧ (waiting [.readResp]).pending = .readResp :: [] ∧
    (waiting [.readDigest]).pending = .readDigest :: [] ∧ (waiting [.readDigest]).phase = .absorbing ∧
    finalizedState.phase = .finalized ∧ finalizedState.digest = some (Vector.replicate 32 0x5A) := by decide
theorem witness_ResetForgetsEverything :
    (waiting [.reset]).pending = .reset :: [] ∧ (waiting [.resetDuring 0x01FF]).pending = .resetDuring 0x01FF :: [] ∧
    (0x01FF : CmdWord) ∈ legalExternalWords := by decide +kernel
theorem witness_IotaXorsTheRoundConstant : (23 : Byte).toNat = (23 : Fin 24).val := by decide
theorem witness_RoundIndexAbove23IsRefused : 24 ≤ (24 : Byte).toNat ∧ 24 ≤ (255 : Byte).toNat := by decide
theorem witness_RoundIsTheFiveStepsInOrder : (23 : Byte).toNat ≤ 23 ∧ (0 : Byte).toNat ≤ 23 := by decide
theorem witness_PermutationCoreIsPure :
    Instr.chi.block = .prm ∧ State.reset.lanes = (filled 3).lanes ∧ stepsOn (exec .chi State.reset) = true := by decide +kernel
theorem witness_PutbAppendsOneByte : (filled 135).blen ≤ 135 ∧ 136 ≤ (filled 136).blen := by decide +kernel
theorem witness_PadblkPadsTheTail :
    (filled 135).blen = 135 ∧ (filled 134).blen ≤ 135 ∧ (filled 134).blen ≠ 135 ∧ 136 ≤ (filled 136).blen := by decide +kernel
theorem witness_AbsorbXorsTheBlockAndPermutes : (filled 136).blen = 136 ∧ (filled 135).blen ≠ 136 := by decide +kernel
theorem witness_LittleEndianLanes : [(1 : Byte), 2, 3, 4, 5, 6, 7, 8].length = 8 := by decide
theorem witness_PadRule :
    (List.replicate 135 (0 : Byte)).length % 136 = 135 ∧ (List.replicate 134 (0 : Byte)).length % 136 ≠ 135 ∧
    (List.replicate 136 (0 : Byte)).length % 136 = ([] : List Byte).length % 136 := by decide +kernel
theorem witness_PaddingTheTailEqualsPaddingTheMessage : (filled 135).blen ≤ 135 ∧ (filled 0).blen ≤ 135 := by decide +kernel
theorem witness_UpdbFeedsOneByte :
    finalizedState.phase = .finalized ∧ (filled 134).phase = .absorbing ∧ (filled 134).blen < 135 ∧
    (filled 135).phase = .absorbing ∧ (filled 135).blen = 135 := by decide +kernel
theorem witness_UpdzChangesRespOnly : finalizedState.phase = .finalized ∧ State.reset.phase = .absorbing := by decide
theorem witness_FinalPadsAbsorbsAndSqueezes :
    finalizedState.phase = .finalized ∧ (filled 135).phase = .absorbing ∧ (filled 135).blen ≤ 135 := by decide +kernel
theorem witness_InvalidStateExactlyWhenFinalized :
    stepsOn (exec .updz finalizedState) = true ∧ Instr.updz.block = .eng ∧ finalizedState.phase = .finalized ∧
    stepsOn (exec (.updb 1) State.reset) = true ∧ State.reset.phase = .absorbing ∧
    stepsOn (exec .init finalizedState) = true ∧ stepsOn (exec .squeeze State.reset) = true ∧ Instr.squeeze.block ≠ .eng := by
  decide +kernel
theorem witness_FinalizedRejectsUntilInit :
    finalizedState.phase = .finalized ∧ [Instr.updz, .final, .updb 0] ≠ [] ∧
    ∀ i ∈ [Instr.updz, .final, .updb 0], i.block = .eng ∧ i ≠ .init := by decide
theorem witness_OnlyInitAndFinalChangeThePhase :
    answers (exec .init finalizedState) (fun t => t.phase != finalizedState.phase) = true ∧
    answers (exec .final State.reset) (fun t => t.phase != State.reset.phase) = true := by decide +kernel
theorem witness_FrameOfEveryInstruction :
    stepsOn (exec .updz State.reset) = true ∧ stepsOn (exec .padblk (filled 135)) = true ∧
    stepsOn (exec .squeeze State.reset) = true ∧ stepsOn (exec (.putb 0) (filled 135)) = true ∧
    stepsOn (exec (.updb 0) (filled 134)) = true ∧ (filled 134).blen ≠ 135 ∧ stepsOn (exec .theta State.reset) = true ∧
    stepsOn (exec .init finalizedState) = true ∧ stepsOn (exec .clrst (filled 136)) = true ∧
    stepsOn (exec .final finalizedState) = true ∧ finalizedState.phase = .finalized := by decide +kernel
theorem witness_EveryCommandHasAStep :
    (Instr.updb 0).block = .eng ∧ (filled 135).blen ≤ 135 ∧ (filled 136).phase = .absorbing ∧ 136 ≤ (filled 136).blen := by
  decide +kernel

theorem witness_EveryStepKeepsTheStateInvariant :
    StateWf (waiting [.word .cmd 0x0300]) ∧ stepsOn (step (waiting [.word .cmd 0x0300])) = true :=
  ⟨⟨by decide, by decide, by decide⟩, by decide +kernel⟩

/-- One byte delivered, FINAL pending. -/
theorem witness_EveryStepKeepsTheEngineInvariant :
    EngineInv { withBuf [0x61] with pending := [.word .cmd 0x0300] } [0x61] ∧
    (HostAction.word .cmd 0x0300).external = true ∧
    stepsOn (step { withBuf [0x61] with pending := [.word .cmd 0x0300] }) = true :=
  ⟨⟨by decide, by decide, fun _ => rfl, fun _ => rfl, fun _ => by decide +kernel, fun h => by cases h⟩, by decide,
    by decide +kernel⟩

theorem witness_LegalStreamsNeverStop :
    (waiting [.reset, .word .cmd 0x0200]).blen ≤ 135 ∧ ∀ a ∈ (waiting [.reset, .word .cmd 0x0200]).pending,
      a = .reset ∨ a = .readStatus ∨ a = .readResp ∨ ∃ w ∈ legalExternalWords, a = .word .cmd w := by
  refine ⟨by decide, fun a ha => ?_⟩
  rcases List.mem_cons.1 ha with rfl | ha
  · exact .inl rfl
  · rw [List.mem_singleton.1 ha]
    exact .inr (.inr (.inr ⟨0x0200, by decide +kernel, rfl⟩))

theorem witness_EveryChunkingGivesTheSameDigest :
    (∀ i ∈ [Instr.updz, .updb 0x61, .updz], i = .updz ∨ ∃ b, i = .updb b) ∧
    [Instr.updz, .updb 0x61, .updz].filterMap (fun i => if i = .updz then none else some i.imm8) = [0x61] :=
  ⟨by simp, by decide⟩

theorem witness_InitForgetsTheHistory : HostAction.word .cmd 0x0000 = .word .cmd (encode .init) := by decide

theorem witness_InstancesDoNotInteract :
    (0 : Fin 2) ≠ 1 ∧ stepsOn (step (waiting [.word .cmd 0x0161])) = true ∧ stepsOn (step finalizedState) = true := by
  decide +kernel

theorem witness_ReadsOfSomeDigestBytes :
    { finalizedState with pending := [.readDigestBytes [0, 31]] }.pending = .readDigestBytes [0, 31] :: [] ∧
    finalizedState.phase = .finalized ∧ finalizedState.digest = some (Vector.replicate 32 0x5A) ∧
    { finalizedState with pending := [.readDigestBytes (List.finRange 32)] }.pending =
      .readDigestBytes (List.finRange 32) :: [] ∧
    (waiting [.readDigestBytes [0]]).pending = .readDigestBytes [0] :: [] ∧
    (waiting [.readDigestBytes [0]]).phase = .absorbing := by decide +kernel

theorem witness_ToHexRendersEachByte : [(0x00 : Byte), 0xFF][1]? = some 0xFF := by decide

end Sys2Proof.Tests
end

