-- ==== Sys2Proof/Proofs/Instances.lean ====
section
/-! PROOFS. Instances (20_memory.md R66): what a step of one instance writes, and that two such writes commute. -/

namespace Sys2Proof.Machine

/-- Where instance `k` steps on, `stepInstance` writes its next state at place `k` and nothing else. -/
theorem stepInstance_eq_set {n : Nat} {es : Vector State n} {k : Fin n} {t : State} (h : step es[k] = .next t) :
    stepInstance k es = .next (es.set k t) := by
  unfold stepInstance
  rw [h]

/-- A write at place `j` leaves every other instance as it was. -/
theorem getElem_set_of_ne {n : Nat} (es : Vector State n) {j l : Fin n} (s : State) (hne : l ≠ j) :
    (es.set j s)[l] = es[l] :=
  Vector.getElem_set_ne j.isLt l.isLt fun h => hne (Fin.ext h).symm

/-- Settles O48: each step writes its own place only, so the other instance's step reads the same state before and after
it, and the two writes, at different places, commute. -/
theorem instancesDoNotInteract : Obligations.InstancesDoNotInteract := by
  intro n es j k s t hjk hj hk
  have hk' : step (es.set j s)[k] = .next t := by rw [getElem_set_of_ne es s hjk.symm, hk]
  have hj' : step (es.set k t)[j] = .next s := by rw [getElem_set_of_ne es t hjk, hj]
  have hcomm : (es.set k t).set j s = (es.set j s).set k t := Vector.set_comm t s fun h => hjk (Fin.ext h).symm
  exact ⟨es.set j s, es.set k t, (es.set j s).set k t, stepInstance_eq_set hj, Vector.getElem_set_self j.isLt,
    fun l hl => getElem_set_of_ne es s hl, stepInstance_eq_set hk, stepInstance_eq_set hk',
    hcomm ▸ stepInstance_eq_set hj'⟩

end Sys2Proof.Machine
end

