-- ==== Sys2Proof/Proofs/Encoding.lean ====
section
/-! PROOFS. Encoding (30_encoding.md R70 to R78): what decodes is the word of a well-formed instruction, a row of the opcode
map selects exactly the words of its own instructions, and what is left over is the list of R78. -/

namespace Sys2Proof

/-! ### What the decoder answers -/

theorem formatZ_eq_ok_iff {i j : Instr} {imm : Byte} : formatZ i imm = .ok j ↔ imm = 0 ∧ i = j := by
  unfold formatZ
  split
  next h => simp [h]
  next h => exact ⟨nofun, fun ⟨h0, _⟩ => absurd h0 h⟩

theorem formatR_eq_ok_iff {mk : Byte → Instr} {imm : Byte} {j : Instr} :
    formatR mk imm = .ok j ↔ imm.toNat ≤ 23 ∧ mk imm = j := by
  unfold formatR
  split
  next h => simp [h]
  next h => exact ⟨nofun, fun ⟨hr, _⟩ => absurd hr h⟩

/-- `i` is well-formed, and `blk`, `fn` and `imm` are the fields of its word: its row's block and function, and its operand. -/
structure Instr.HasFields (i : Instr) (blk fn : Nat) (imm : Byte) : Prop where
  blk_eq : (blkOf i.row.matchBits).toNat = blk
  fn_eq  : (fnOf i.row.matchBits).toNat = fn
  imm_eq : i.imm8 = imm
  wf_eq  : i.wf = true

/-- For an operand that is a variable: the fields are computed from the match bits, which do not name it. -/
theorem Instr.hasFields_of_matchBits {i : Instr} {m : CmdWord} {blk fn : Nat} (hm : i.row.matchBits = m)
    (hb : (blkOf m).toNat = blk) (hf : (fnOf m).toNat = fn) (hwf : i.wf = true) : i.HasFields blk fn i.imm8 := by
  subst hm
  exact ⟨hb, hf, rfl, hwf⟩

theorem formatZ_hasFields {i j : Instr} {blk fn : Nat} {imm : Byte} (h : formatZ j imm = .ok i)
    (hj : j.HasFields blk fn 0) : i.HasFields blk fn imm := by
  obtain ⟨rfl, rfl⟩ := formatZ_eq_ok_iff.1 h
  exact hj

theorem decodeEng_hasFields {fn : Nat} {imm : Byte} {i : Instr} (h : decodeEng fn imm = .ok i) :
    i.HasFields 0 fn imm := by
  unfold decodeEng at h
  split at h
  · exact formatZ_hasFields h ⟨rfl, rfl, rfl, rfl⟩
  · cases h
    exact Instr.hasFields_of_matchBits (m := 0x0100) rfl rfl rfl rfl
  · exact formatZ_hasFields h ⟨rfl, rfl, rfl, rfl⟩
  · exact formatZ_hasFields h ⟨rfl, rfl, rfl, rfl⟩
  · cases h

theorem decodeSpg_hasFields {fn : Nat} {imm : Byte} {i : Instr} (h : decodeSpg fn imm = .ok i) :
    i.HasFields 1 fn imm := by
  unfold decodeSpg at h
  split at h
  · exact formatZ_hasFields h ⟨rfl, rfl, rfl, rfl⟩
  · cases h
    exact Instr.hasFields_of_matchBits (m := 0x1100) rfl rfl rfl rfl
  · exact formatZ_hasFields h ⟨rfl, rfl, rfl, rfl⟩
  · exact formatZ_hasFields h ⟨rfl, rfl, rfl, rfl⟩
  · exact formatZ_hasFields h ⟨rfl, rfl, rfl, rfl⟩
  · cases h

theorem decodePrm_hasFields {fn : Nat} {imm : Byte} {i : Instr} (h : decodePrm fn imm = .ok i) :
    i.HasFields 2 fn imm := by
  unfold decodePrm at h
  split at h
  · exact formatZ_hasFields h ⟨rfl, rfl, rfl, rfl⟩
  · exact formatZ_hasFields h ⟨rfl, rfl, rfl, rfl⟩
  · exact formatZ_hasFields h ⟨rfl, rfl, rfl, rfl⟩
  · exact formatZ_hasFields h ⟨rfl, rfl, rfl, rfl⟩
  · obtain ⟨hr, rfl⟩ := formatR_eq_ok_iff.1 h
    exact Instr.hasFields_of_matchBits (m := 0x2400) rfl rfl rfl (decide_eq_true hr)
  · obtain ⟨hr, rfl⟩ := formatR_eq_ok_iff.1 h
    exact Instr.hasFields_of_matchBits (m := 0x2500) rfl rfl rfl (decide_eq_true hr)
  · exact formatZ_hasFields h ⟨rfl, rfl, rfl, rfl⟩
  · cases h

theorem decode_hasFields {w : CmdWord} {i : Instr} (h : decode w = .ok i) :
    i.HasFields (blkOf w).toNat (fnOf w).toNat (imm8Of w) := by
  unfold decode at h
  split at h
  next hb => exact hb ▸ decodeEng_hasFields h
  next hb => exact hb ▸ decodeSpg_hasFields h
  next hb => exact hb ▸ decodePrm_hasFields h
  next => cases h

/-- The decoder undoes the encoder on every operand the encoding admits. -/
theorem decode_encode {i : Instr} (h : i.wf = true) : decode (encode i) = .ok i := by
  obtain ⟨hb, hf, hi⟩ := fields_encode i
  simp only [decode, hb, hf, hi]
  cases i with simp only [Instr.row]
  | iota r => exact formatR_eq_ok_iff.2 ⟨of_decide_eq_true h, rfl⟩
  | round r => exact formatR_eq_ok_iff.2 ⟨of_decide_eq_true h, rfl⟩
  | _ => rfl

/-- The words that decode to `i`: the word of `i`, if it is well-formed, and no other. -/
theorem decode_eq_ok_iff {w : CmdWord} {i : Instr} : decode w = .ok i ↔ w = encode i ∧ i.wf = true := by
  constructor
  · intro h
    obtain ⟨hb, hf, hi, hwf⟩ := decode_hasFields h
    obtain ⟨eb, ef, ei⟩ := fields_encode i
    exact ⟨word_ext (by rw [eb, BitVec.eq_of_toNat_eq hb]) (by rw [ef, BitVec.eq_of_toNat_eq hf]) (by rw [ei, hi]), hwf⟩
  · rintro ⟨rfl, hwf⟩
    exact decode_encode hwf

theorem decodeAt_eq_ok_iff {p : Port} {w : CmdWord} {i : Instr} :
    decodeAt p w = .ok i ↔ decode w = .ok i ∧ i.block = p.block := by
  unfold decodeAt
  cases decode w with
  | error e => simp
  | ok j =>
    dsimp only
    by_cases hj : j.block = p.block
    · rw [if_pos hj]
      exact ⟨fun h => ⟨h, Except.ok.inj h ▸ hj⟩, And.left⟩
    · rw [if_neg hj]
      exact ⟨nofun, fun ⟨h, hb⟩ => absurd (Except.ok.inj h ▸ hb) hj⟩

/-! ### The rows of the opcode map -/

/-- The rows of the map are the rows of the instructions. -/
theorem mem_opcodeTable_iff {row : OpcodeRow} : row ∈ opcodeTable ↔ ∃ i : Instr, i.row = row := by
  constructor
  · intro h
    obtain ⟨i, -, hi⟩ := List.mem_map.1 h
    exact ⟨i, hi⟩
  · rintro ⟨i, rfl⟩
    cases i <;> simp [opcodeTable, rowExamples, Instr.row]

/-- An encoded instruction selects its own row: the sixteen lemmas of Laws/PerInstr.lean as one. -/
theorem row_selects_encode (i : Instr) : Laws.SelectsItsRow.Statement i := by
  cases i with
  | init => exact Laws.SelectsItsRow.init
  | updb b => exact Laws.SelectsItsRow.updb b
  | updz => exact Laws.SelectsItsRow.updz
  | final => exact Laws.SelectsItsRow.final
  | clrst => exact Laws.SelectsItsRow.clrst
  | putb b => exact Laws.SelectsItsRow.putb b
  | padblk => exact Laws.SelectsItsRow.padblk
  | absorb => exact Laws.SelectsItsRow.absorb
  | squeeze => exact Laws.SelectsItsRow.squeeze
  | theta => exact Laws.SelectsItsRow.theta
  | rho => exact Laws.SelectsItsRow.rho
  | pi => exact Laws.SelectsItsRow.pi
  | chi => exact Laws.SelectsItsRow.chi
  | iota r => exact Laws.SelectsItsRow.iota r
  | round r => exact Laws.SelectsItsRow.round r
  | permute => exact Laws.SelectsItsRow.permute

/-- The values of `imm8` that a format admits (R72). -/
def Format.admits : Format → Byte → Prop
  | .z, imm => imm = 0
  | .b, _ => True
  | .r, imm => imm.toNat ≤ 23

theorem Format.not_admits_iff {f : Format} {imm : Byte} :
    ¬ f.admits imm ↔ (f = .z ∧ imm ≠ 0) ∨ (f = .r ∧ 24 ≤ imm.toNat) := by
  cases f <;> simp [Format.admits, Nat.lt_iff_add_one_le]

theorem imm8Of_row_matchBits (i : Instr) : imm8Of i.row.matchBits = 0 := by
  cases i <;> simp only [Instr.row] <;> decide

theorem mask_row (i : Instr) : i.row.mask = if i.row.format = .z then 0xFFFF else 0xFF00 := by
  cases i <;> rfl

/-- The mask 0xFF00 keeps `blk` and `fn` and clears `imm8`. -/
theorem fields_and_upper (w : CmdWord) :
    blkOf (w &&& 0xFF00) = blkOf w ∧ fnOf (w &&& 0xFF00) = fnOf w ∧ imm8Of (w &&& 0xFF00) = 0 := by
  refine ⟨?_, ?_, ?_⟩
  · rw [blkOf, BitVec.extractLsb'_and]
    exact BitVec.and_allOnes
  · rw [fnOf, BitVec.extractLsb'_and]
    exact BitVec.and_allOnes
  · rw [imm8Of, BitVec.extractLsb'_and]
    exact BitVec.and_zero

/-- The upper byte of a word is compared field by field. -/
theorem and_upper_eq_iff {w m : CmdWord} (hm : imm8Of m = 0) :
    w &&& 0xFF00 = m ↔ blkOf w = blkOf m ∧ fnOf w = fnOf m := by
  obtain ⟨hb, hf, hi⟩ := fields_and_upper w
  constructor
  · rintro rfl
    exact ⟨hb.symm, hf.symm⟩
  · rintro ⟨eb, ef⟩
    exact word_ext (hb.trans eb) (hf.trans ef) (hi.trans hm.symm)

/-- A whole word is compared as its upper byte and `imm8`. -/
theorem and_whole_eq_iff {w m : CmdWord} (hm : imm8Of m = 0) :
    w &&& 0xFFFF = m ↔ w &&& 0xFF00 = m ∧ imm8Of w = 0 := by
  have hwhole : w &&& 0xFFFF = w := BitVec.and_allOnes
  rw [hwhole, and_upper_eq_iff hm]
  constructor
  · rintro rfl
    exact ⟨⟨rfl, rfl⟩, hm⟩
  · rintro ⟨⟨hb, hf⟩, hi⟩
    exact word_ext hb hf (hi.trans hm.symm)

/-- A row selects a word by the upper byte and by what its format admits in `imm8`. -/
theorem selects_row_iff {i : Instr} {w : CmdWord} :
    i.row.selects w = true ↔ w &&& 0xFF00 = i.row.matchBits ∧ i.row.format.admits (imm8Of w) := by
  unfold OpcodeRow.selects
  rw [mask_row]
  cases i.row.format with
  | z => simpa [Format.admits] using and_whole_eq_iff (w := w) (imm8Of_row_matchBits i)
  | b | r => simp [Format.admits]

/-- The instruction with the operand `b` in place of its own, where it has one. -/
def Instr.withOperand (b : Byte) : Instr → Instr
  | .updb _ => .updb b
  | .putb _ => .putb b
  | .iota _ => .iota b
  | .round _ => .round b
  | i => i

@[simp] theorem Instr.withOperand_row (i : Instr) (b : Byte) : (i.withOperand b).row = i.row := by
  cases i <;> rfl

theorem Instr.withOperand_imm8 {i : Instr} {b : Byte} (h : i.row.format.admits b) : (i.withOperand b).imm8 = b := by
  cases i with
  | updb _ | putb _ | iota _ | round _ => rfl
  | _ => exact Eq.symm h

theorem Instr.withOperand_wf {i : Instr} {b : Byte} (h : i.row.format.admits b) : (i.withOperand b).wf = true := by
  cases i with
  | iota _ | round _ => exact decide_eq_true h
  | _ => rfl

/-- What a row selects decodes to the row's instruction with the word's `imm8`. -/
theorem decode_of_selects {i : Instr} {w : CmdWord} (h : i.row.selects w = true) :
    decode w = .ok (i.withOperand (imm8Of w)) := by
  obtain ⟨hop, himm⟩ := selects_row_iff.1 h
  obtain ⟨hb, hf⟩ := (and_upper_eq_iff (imm8Of_row_matchBits i)).1 hop
  obtain ⟨eb, ef, ei⟩ := fields_encode (i.withOperand (imm8Of w))
  rw [Instr.withOperand_row] at eb ef
  rw [Instr.withOperand_imm8 himm] at ei
  exact decode_eq_ok_iff.2 ⟨word_ext (hb.trans eb.symm) (hf.trans ef.symm) ei.symm, Instr.withOperand_wf himm⟩

/-- Settles O2: decoded words are the encoded instructions, which select their own rows; a row's words decode back to it,
and since the decoder is a function no word has two rows. -/
theorem decoderFollowsTheOpcodeTable : Obligations.DecoderFollowsTheOpcodeTable := by
  have hdecode : ∀ (w : CmdWord) (row : OpcodeRow), row ∈ opcodeTable → row.selects w = true →
      ∃ i, decode w = .ok i ∧ i.row = row := by
    intro w row hrow hsel
    obtain ⟨i, rfl⟩ := mem_opcodeTable_iff.1 hrow
    exact ⟨_, decode_of_selects hsel, Instr.withOperand_row i _⟩
  refine ⟨fun w i h => ?_, hdecode, fun w row row' hrow hrow' hsel hsel' => ?_⟩
  · obtain ⟨rfl, hwf⟩ := decode_eq_ok_iff.1 h
    exact ⟨mem_opcodeTable_iff.2 ⟨i, rfl⟩, row_selects_encode i hwf, (fields_encode i).2.2.symm⟩
  · obtain ⟨i, hi, rfl⟩ := hdecode w row hrow hsel
    obtain ⟨j, hj, rfl⟩ := hdecode w row' hrow' hsel'
    rw [Except.ok.inj (hi.symm.trans hj)]

/-! ### The reserved words -/

/-- The words of no row at all: the clauses of R78 about `blk` and `fn`. -/
def NoSuchOpcode (blk fn : BitVec 4) : Prop :=
  3 ≤ blk.toNat ∨ (blk.toNat = 0 ∧ 4 ≤ fn.toNat) ∨ (blk.toNat = 1 ∧ 5 ≤ fn.toNat) ∨ (blk.toNat = 2 ∧ 7 ≤ fn.toNat)

/-- Block by block, the rows take the functions from 0 up without a gap. -/
theorem noSuchOpcode_iff (blk fn : BitVec 4) :
    NoSuchOpcode blk fn ↔ ¬ ∃ row ∈ opcodeTable, blk = blkOf row.matchBits ∧ fn = fnOf row.matchBits := by
  unfold NoSuchOpcode
  revert blk fn
  decide

theorem noSuchOpcode_iff_no_row (w : CmdWord) :
    NoSuchOpcode (blkOf w) (fnOf w) ↔ ¬ ∃ row ∈ opcodeTable, w &&& 0xFF00 = row.matchBits := by
  rw [noSuchOpcode_iff, not_iff_not]
  refine exists_congr fun row => and_congr_right fun hrow => ?_
  obtain ⟨i, rfl⟩ := mem_opcodeTable_iff.1 hrow
  exact (and_upper_eq_iff (imm8Of_row_matchBits i)).symm

/-- Two rows never share their match bits. -/
theorem matchBits_injOn : ∀ row ∈ opcodeTable, ∀ row' ∈ opcodeTable, row.matchBits = row'.matchBits → row = row' := by
  decide

/-- A word decodes exactly when some row has its upper byte and admits its `imm8`. -/
theorem exists_decode_ok_iff {w : CmdWord} : (∃ i, decode w = .ok i) ↔
    ∃ row ∈ opcodeTable, w &&& 0xFF00 = row.matchBits ∧ row.format.admits (imm8Of w) := by
  constructor
  · rintro ⟨i, h⟩
    obtain ⟨rfl, hwf⟩ := decode_eq_ok_iff.1 h
    exact ⟨i.row, mem_opcodeTable_iff.2 ⟨i, rfl⟩, selects_row_iff.1 (row_selects_encode i hwf)⟩
  · rintro ⟨row, hrow, h⟩
    obtain ⟨i, rfl⟩ := mem_opcodeTable_iff.1 hrow
    exact ⟨_, decode_of_selects (selects_row_iff.2 h)⟩

/-- A word is reserved when no row has its upper byte, or when the row that has it does not admit its `imm8`. -/
theorem exists_decode_error_iff {w : CmdWord} : (∃ why, decode w = .error why) ↔
    NoSuchOpcode (blkOf w) (fnOf w) ∨
    ∃ row ∈ opcodeTable, w &&& 0xFF00 = row.matchBits ∧ ¬ row.format.admits (imm8Of w) := by
  have herr : (∃ why, decode w = .error why) ↔ ¬ ∃ i, decode w = .ok i := by cases decode w <;> simp
  rw [herr, exists_decode_ok_iff, noSuchOpcode_iff_no_row]
  constructor
  · intro hnone
    by_cases hrow : ∃ row ∈ opcodeTable, w &&& 0xFF00 = row.matchBits
    · obtain ⟨row, hmem, hop⟩ := hrow
      exact .inr ⟨row, hmem, hop, fun himm => hnone ⟨row, hmem, hop, himm⟩⟩
    · exact .inl hrow
  · rintro (hno | ⟨row, hmem, hop, hbad⟩) ⟨row', hmem', hop', himm⟩
    · exact hno ⟨row', hmem', hop'⟩
    · obtain rfl := matchBits_injOn row hmem row' hmem' (hop.symm.trans hop')
      exact hbad himm

/-- The rows that do not admit a word's `imm8`, by format: the clauses of R78 about `imm8`. -/
theorem exists_not_admits_iff {w : CmdWord} :
    (∃ row ∈ opcodeTable, w &&& 0xFF00 = row.matchBits ∧ ¬ row.format.admits (imm8Of w)) ↔
    (∃ row ∈ opcodeTable, row.format = .z ∧ w &&& 0xFF00 = row.matchBits ∧ imm8Of w ≠ 0) ∨
    (∃ row ∈ opcodeTable, row.format = .r ∧ w &&& 0xFF00 = row.matchBits ∧ 24 ≤ (imm8Of w).toNat) := by
  constructor
  · rintro ⟨row, hmem, hop, hbad⟩
    rcases Format.not_admits_iff.1 hbad with ⟨hf, himm⟩ | ⟨hf, himm⟩
    · exact .inl ⟨row, hmem, hf, hop, himm⟩
    · exact .inr ⟨row, hmem, hf, hop, himm⟩
  · rintro (⟨row, hmem, hf, hop, himm⟩ | ⟨row, hmem, hf, hop, himm⟩)
    · exact ⟨row, hmem, hop, Format.not_admits_iff.2 (.inl ⟨hf, himm⟩)⟩
    · exact ⟨row, hmem, hop, Format.not_admits_iff.2 (.inr ⟨hf, himm⟩)⟩

end Sys2Proof

namespace Sys2Proof.Machine

/-- As numbers, the legal external words are 0, the 256 from 0x0100 on, 0x0200 and 0x0300. -/
theorem legalExternalWords_map_toNat :
    legalExternalWords.map BitVec.toNat = 0 :: List.range' 0x0100 256 ++ [0x0200, 0x0300] := by
  have hupdb : ∀ n ∈ List.range 256, (BitVec.ofNat 16 (0x0100 + n)).toNat = 0x0100 + n := by
    intro n hn
    rw [BitVec.toNat_ofNat, Nat.mod_eq_of_lt (by have := List.mem_range.1 hn; omega)]
  rw [List.range'_eq_map_range, ← List.map_congr_left hupdb]
  simp [legalExternalWords]

theorem legalExternalWords_nodup : legalExternalWords.Nodup := by
  have hbelow : ∀ n : Nat, 0x0100 ≤ n → n < 0x0200 → ¬ n = 0x0200 ∧ ¬ n = 0x0300 := by omega
  refine List.Nodup.of_map BitVec.toNat ?_
  rw [legalExternalWords_map_toNat]
  simpa [List.nodup_append, List.nodup_range', List.mem_range'_1] using hbelow

theorem legalExternalWords_length : legalExternalWords.length = 259 := by
  simp [legalExternalWords]

theorem encode_updb (b : Byte) : encode (.updb b) = BitVec.ofNat 16 (0x0100 + b.toNat) := by
  have hb := b.isLt
  have hor : 0x0100 ||| b.toNat = 0x0100 + b.toNat := (Nat.two_pow_add_eq_or_of_lt (i := 8) hb 1).symm
  apply BitVec.eq_of_toNat_eq
  rw [BitVec.toNat_ofNat, Nat.mod_eq_of_lt (by omega), ← hor]
  change (0x0100#16 ||| b.setWidth 16).toNat = _
  rw [BitVec.toNat_or, BitVec.toNat_setWidth_of_le (by decide)]
  rfl

/-- The legal external words are the words of the four commands (R75, R78). -/
theorem mem_legalExternalWords_iff {w : CmdWord} :
    w ∈ legalExternalWords ↔ ∃ i : Instr, i.block = .eng ∧ w = encode i := by
  have hupdb : w ∈ (List.range 256).map (fun b => BitVec.ofNat 16 (0x0100 + b)) ↔ ∃ b, w = encode (.updb b) := by
    rw [List.mem_map]
    constructor
    · rintro ⟨n, hn, rfl⟩
      refine ⟨BitVec.ofNat 8 n, ?_⟩
      rw [encode_updb, BitVec.toNat_ofNat, Nat.mod_eq_of_lt (List.mem_range.1 hn)]
    · rintro ⟨b, rfl⟩
      exact ⟨b.toNat, List.mem_range.2 b.isLt, (encode_updb b).symm⟩
  unfold legalExternalWords
  rw [List.mem_append, List.mem_append, hupdb, List.mem_singleton, List.mem_pair]
  constructor
  · rintro ((rfl | ⟨b, rfl⟩) | rfl | rfl)
    · exact ⟨.init, rfl, rfl⟩
    · exact ⟨.updb b, rfl, rfl⟩
    · exact ⟨.updz, rfl, rfl⟩
    · exact ⟨.final, rfl, rfl⟩
  · rintro ⟨i, hi, rfl⟩
    cases i with
    | init => exact .inl (.inl rfl)
    | updb b => exact .inl (.inr ⟨b, rfl⟩)
    | updz => exact .inr (.inl rfl)
    | final => exact .inr (.inr rfl)
    | _ => cases hi

theorem wf_of_block_eng {i : Instr} (h : i.block = .eng) : i.wf = true := by
  cases i with
  | iota _ | round _ => cases h
  | _ => rfl

theorem exists_decodeAt_cmd_ok_iff {w : CmdWord} : (∃ i, decodeAt .cmd w = .ok i) ↔ w ∈ legalExternalWords := by
  rw [mem_legalExternalWords_iff]
  refine exists_congr fun i => ?_
  rw [decodeAt_eq_ok_iff, decode_eq_ok_iff]
  exact ⟨fun ⟨⟨hw, _⟩, hb⟩ => ⟨hb, hw⟩, fun ⟨hb, hw⟩ => ⟨⟨hw, wf_of_block_eng hb⟩, hb⟩⟩

/-- A word that is reserved at a port gets no step, in no state (R78, R151). -/
theorem issue_of_reserved {p : Port} {w : CmdWord} {why : Reserved} (h : decodeAt p w = .error why) (s : State) :
    issue p w s = .refused (.reservedWord why) := by
  unfold issue
  rw [h]

/-- Settles O5: a word is reserved where no row has its upper byte or the row that has it does not admit its `imm8`; the
legal external words are those of the four commands. -/
theorem reservedWordsAreRefused : Obligations.ReservedWordsAreRefused := by
  refine ⟨fun w => ?_, legalExternalWords_nodup, legalExternalWords_length, fun w => exists_decodeAt_cmd_ok_iff,
    fun p w why s h => issue_of_reserved h s⟩
  rw [exists_decode_error_iff, exists_not_admits_iff, NoSuchOpcode]
  simp only [or_assoc]

end Sys2Proof.Machine
end

