-- ==== Sys2Proof/Proofs/Permutation.lean ====
section
/-! PROOFS. The permutation core (40_permutation.md R90 to R102): what each operation does to the lane at given coordinates,
that the loop of PERMUTE is the composition of the 24 rounds, and that no operation touches anything but the lanes and
`RI`. -/

namespace Sys2Proof.Machine

/-! ### Coordinates -/

/-- `laneXY` takes its coordinates modulo 5, `coord` has them in `Fin 5` (R12). -/
theorem laneXY_eq_coord (A : Lanes) (x y : Nat) : laneXY A x y = coord A (Fin.ofNat 5 x) (Fin.ofNat 5 y) :=
  lane_eq_getElem A _ (laneIndex_lt x y)

@[simp] theorem laneXY_val (A : Lanes) (x y : Fin 5) : laneXY A x y = coord A x y := by
  rw [laneXY_eq_coord, Fin.ofNat_val_eq_self, Fin.ofNat_val_eq_self]

@[simp] theorem coord_tabulateXY (f : Nat → Nat → Lane) (x y : Fin 5) : coord (tabulateXY f) x y = f x y := by
  rw [← laneXY_val, laneXY_tabulateXY, Nat.mod_eq_of_lt x.isLt, Nat.mod_eq_of_lt y.isLt]

/-- The spec's `x + k` is the sum of coordinates modulo 5. -/
theorem laneXY_add_left (A : Lanes) (x y k : Fin 5) : laneXY A (x.val + k.val) y = coord A (x + k) y := by
  rw [laneXY_eq_coord, Fin.ofNat_val_eq_self]
  rfl

/-! ### What the operations answer -/

theorem exec_theta (s : State) : exec .theta s = .next (s.mapLanes thetaLanes) := rfl
theorem exec_rho (s : State) : exec .rho s = .next (s.mapLanes rhoLanes) := rfl
theorem exec_pi (s : State) : exec .pi s = .next (s.mapLanes piLanes) := rfl
theorem exec_chi (s : State) : exec .chi s = .next (s.mapLanes chiLanes) := rfl
theorem exec_permute (s : State) : exec .permute s = .next s.permute := rfl

theorem roundIndex_of_toNat_eq {imm : Byte} {r : Fin 24} (h : imm.toNat = r.val) : roundIndex imm = some r := by
  rw [roundIndex_of_lt imm (h ▸ r.isLt)]
  exact congrArg some (Fin.ext h)

theorem exec_iota_of_toNat_eq {imm : Byte} {r : Fin 24} (h : imm.toNat = r.val) (s : State) :
    exec (.iota imm) s = .next (s.mapLanes (iotaLanes r)) := by
  rw [exec, execIota, roundIndex_of_toNat_eq h]

theorem exec_round_of_toNat_eq {imm : Byte} {r : Fin 24} (h : imm.toNat = r.val) (s : State) :
    exec (.round imm) s = .next (s.mapLanes (roundLanes r)) := by
  rw [exec, execRound, roundIndex_of_toNat_eq h]

theorem exec_iota_of_ge {imm : Byte} (h : 24 ≤ imm.toNat) (s : State) :
    exec (.iota imm) s = .refused (.roundIndexReserved imm) := by
  rw [exec, execIota, roundIndex_of_ge imm h]

theorem exec_round_of_ge {imm : Byte} (h : 24 ≤ imm.toNat) (s : State) :
    exec (.round imm) s = .refused (.roundIndexReserved imm) := by
  rw [exec, execRound, roundIndex_of_ge imm h]

/-- An instruction that steps on hands its next state to the rest of the list. -/
theorem execAll_cons_of_next {i : Instr} {s t : State} (h : exec i s = .next t) (is : List Instr) :
    execAll (i :: is) s = execAll is t := by
  rw [execAll, h, andThen_next]

/-! ### THETA, RHO, PI, CHI -/

theorem columnParity_eq_coord (A : Lanes) (x : Fin 5) :
    columnParity A x = coord A x 0 ^^^ coord A x 1 ^^^ coord A x 2 ^^^ coord A x 3 ^^^ coord A x 4 := by
  simp only [← laneXY_val]
  rfl

theorem columnParity_mod (A : Lanes) (x : Nat) : columnParity A (x % 5) = columnParity A x := by
  simp only [columnParity, laneXY, laneIndex, Nat.mod_mod]

/-- Subtracting 1 from a coordinate is adding 4 (R12). -/
theorem columnMix_eq (A : Lanes) (x : Fin 5) :
    columnMix A x = columnParity A (x - 1 : Fin 5) ^^^ (columnParity A (x + 1 : Fin 5)).rotateLeft 1 := by
  have hsub : (x - 1 : Fin 5).val = (x.val + 4) % 5 := by rw [Fin.val_sub, Nat.add_comm]; rfl
  have hadd : (x + 1 : Fin 5).val = (x.val + 1) % 5 := Fin.val_add x 1
  rw [hsub, hadd, columnParity_mod, columnParity_mod, columnMix, rotl]

/-- Settles O14: `C` and `D` are the column parity and the column mix of the old lanes. -/
theorem thetaXorsColumnParities : Obligations.ThetaXorsColumnParities := by
  refine ⟨rfl, fun s => ⟨thetaLanes s.lanes, exec_theta s, fun x => columnParity s.lanes x, fun x => columnMix s.lanes x,
    columnParity_eq_coord s.lanes, columnMix_eq s.lanes, fun x y => ?_⟩⟩
  rw [thetaLanes, coord_tabulateXY, laneXY_val]

theorem rhoLanes_getElem (A : Lanes) (i : Nat) (h : i < 25) : (rhoLanes A)[i] = rotl A[i] Config.rot[i] := by
  have hrot : Config.rot.toList.getD i 0 = Config.rot[i] := by simp [h]
  rw [rhoLanes, tabulate_getElem _ _ h, lane_eq_getElem _ _ h, hrot]

/-- Rotation bit by bit (R13): a bit either stays below position 64 or wraps around. -/
theorem getLsbD_rotl (a : Lane) (n : Nat) {z : Nat} (hz : z < 64) : (rotl a n).getLsbD ((z + n) % 64) = a.getLsbD z := by
  rw [rotl, BitVec.getLsbD_rotateLeft]
  by_cases hwrap : z + n % 64 < 64
  · have hpos : (z + n) % 64 = z + n % 64 := by omega
    simp [hpos, hwrap]
  · have hpos : (z + n) % 64 = z + n % 64 - 64 := by omega
    have hback : 64 - n % 64 + (z + n % 64 - 64) = z := by omega
    have hlow : z + n % 64 - 64 < n % 64 := by omega
    simp [hpos, hlow, hback]

/-- Settles O15: each lane is rotated by its own offset, and a rotation moves each bit as R13 says. -/
theorem rhoRotatesEachLane : Obligations.RhoRotatesEachLane := by
  refine ⟨rfl, fun s => ⟨rhoLanes s.lanes, exec_rho s, fun i z hz => ?_⟩⟩
  simp only [Fin.getElem_fin, rhoLanes_getElem, getLsbD_rotl _ _ hz]

/-- PI by destination: `(X, Y)` receives the old `((X + 3Y) mod 5, X)` (R94). -/
theorem coord_piLanes (A : Lanes) (X Y : Fin 5) : coord (piLanes A) X Y = coord A (X + 3 * Y) X := by
  have hsrc : Fin.ofNat 5 (X.val + 3 * Y.val) = X + 3 * Y := by
    revert X Y
    decide
  rw [piLanes, coord_tabulateXY, laneXY_eq_coord, hsrc, Fin.ofNat_val_eq_self]

/-- Settles O16: PI is given by destination, and the destination of `(x, y)` has the source `(x, y)`. -/
theorem piMovesLanes : Obligations.PiMovesLanes := by
  have hinv : ∀ x y : Fin 5, y + 3 * (2 * x + 3 * y) = x := by decide
  refine ⟨rfl, fun s => ⟨piLanes s.lanes, exec_pi s, fun x y => ?_, coord_piLanes s.lanes⟩⟩
  rw [coord_piLanes, hinv]

/-- Settles O18: CHI reads the three lanes of the row from the old lanes. -/
theorem chiCombinesEachRow : Obligations.ChiCombinesEachRow := by
  refine ⟨rfl, fun s => ⟨chiLanes s.lanes, exec_chi s, fun x y => ?_⟩⟩
  have hnext : laneXY s.lanes (x + 1) y = coord s.lanes (x + 1) y := laneXY_add_left s.lanes x y 1
  have hafter : laneXY s.lanes (x + 2) y = coord s.lanes (x + 2) y := laneXY_add_left s.lanes x y 2
  rw [chiLanes, coord_tabulateXY, laneXY_val, hnext, hafter]

/-! ### IOTA and ROUND -/

theorem iotaLanes_getElem (r : Fin 24) (A : Lanes) (i : Nat) (h : i < 25) :
    (iotaLanes r A)[i] = if i = 0 then A[0] ^^^ Config.rc[r] else A[i] := by
  rw [iotaLanes, tabulate_getElem _ _ h, lane_eq_getElem _ _ h, lane_eq_getElem _ _ (by decide)]

/-- XOR with the same round constant twice leaves every lane as it was. -/
theorem iotaLanes_iotaLanes (r : Fin 24) (A : Lanes) : iotaLanes r (iotaLanes r A) = A := by
  refine Vector.ext fun i h => ?_
  rw [iotaLanes_getElem _ _ _ h]
  split
  case isTrue hzero =>
    subst hzero
    rw [iotaLanes_getElem _ _ _ h, if_pos rfl, BitVec.xor_assoc, BitVec.xor_self, BitVec.xor_zero]
  case isFalse hne => rw [iotaLanes_getElem _ _ _ h, if_neg hne]

/-- Settles O19: lane by lane, and a second IOTA cancels the first. -/
theorem iotaXorsTheRoundConstant : Obligations.IotaXorsTheRoundConstant := by
  intro s imm r himm
  refine ⟨rfl, iotaLanes r s.lanes, exec_iota_of_toNat_eq himm s, iotaLanes_getElem r s.lanes 0 (by decide),
    fun i hi => ?_, ?_⟩
  · exact (iotaLanes_getElem r s.lanes i i.isLt).trans (if_neg fun h => hi (Fin.ext h))
  · rw [exec_iota_of_toNat_eq himm, State.mapLanes, iotaLanes_iotaLanes]

/-- Settles O21: the five steps, run one after the other, compose to the round's function on the lanes. -/
theorem roundIsTheFiveStepsInOrder : Obligations.RoundIsTheFiveStepsInOrder := by
  intro s imm himm
  have hr : imm.toNat = (⟨imm.toNat, Nat.lt_succ_of_le himm⟩ : Fin 24).val := rfl
  refine ⟨rfl, _, exec_round_of_toNat_eq hr s, ?_⟩
  rw [execAll_cons_of_next (exec_theta _), execAll_cons_of_next (exec_rho _), execAll_cons_of_next (exec_pi _),
    execAll_cons_of_next (exec_chi _), execAll_cons_of_next (exec_iota_of_toNat_eq hr _)]
  rfl

/-! ### PERMUTE -/

/-- The rounds `rs`, the first of the list first. -/
def roundsLanes (rs : List (Fin 24)) (A : Lanes) : Lanes := rs.foldl (fun A r => roundLanes r A) A

theorem keccakF_eq_roundsLanes (A : Lanes) : keccakF A = roundsLanes (List.finRange 24) A := rfl

/-- From `RI` on, with as many turns left as there are rounds, the loop runs the rounds from `RI` to 23. -/
theorem permuteLoop_lanes (n : Nat) (A : Lanes) (ri : BitVec 5) (h : ri.toNat + n = 24) :
    (permuteLoop n A ri).1 = roundsLanes ((List.finRange 24).drop ri.toNat) A := by
  induction n generalizing A ri with
  | zero =>
    rw [List.drop_eq_nil_of_le (by rw [List.length_finRange]; omega)]
    rfl
  | succ n ih =>
    have hlt : ri.toNat < 24 := by omega
    have hnext : (ri + 1).toNat = ri.toNat + 1 := by bv_omega
    rw [permuteLoop_succ n A ri hlt, ih _ _ (by omega), hnext,
      List.drop_eq_getElem_cons (i := ri.toNat) (by rwa [List.length_finRange]), List.getElem_finRange]
    rfl

/-- The loop of PERMUTE is the composition that R101 allows as its definition. -/
theorem permuteLoop_eq_keccakF (A : Lanes) : (permuteLoop 24 A 0).1 = keccakF A :=
  (permuteLoop_lanes 24 A 0 rfl).trans (keccakF_eq_roundsLanes A).symm

theorem permute_eq_keccakF (s : State) : s.permute = { s with lanes := keccakF s.lanes, ri := s.permute.ri } := by
  rw [← permuteLoop_eq_keccakF]
  rfl

/-- ROUND instructions executed one after the other. -/
theorem execAll_round (rs : List (Fin 24)) (s : State) :
    execAll (rs.map fun r => .round (BitVec.ofNat 8 r.val)) s = .next (s.mapLanes (roundsLanes rs)) := by
  induction rs generalizing s with
  | nil => rfl
  | cons r rs ih =>
    have hr : (BitVec.ofNat 8 r.val).toNat = r.val := by
      rw [BitVec.toNat_ofNat, Nat.mod_eq_of_lt (by omega)]
    rw [List.map_cons, execAll_cons_of_next (exec_round_of_toNat_eq hr s), ih]
    rfl

/-- Settles O22: the loop and the 24 ROUND instructions both compose the rounds 0 to 23. -/
theorem permuteIsTwentyFourRounds : Obligations.PermuteIsTwentyFourRounds := by
  refine ⟨rfl, fun s => ⟨keccakF s.lanes, s.permute.ri, ?_, ?_⟩⟩
  · rw [exec_permute, ← permute_eq_keccakF]
  · rw [← List.map_coe_finRange_eq_range, List.map_map, keccakF_eq_roundsLanes]
    exact execAll_round (List.finRange 24) s

/-- Settles O51: the loop computes `keccakF`, and PERMUTE writes the lanes and `RI` only. -/
theorem permuteCompletesAsKeccakF : Obligations.PermuteCompletesAsKeccakF := by
  intro s
  exact ⟨s.permute, exec_permute s, permuteLoop_eq_keccakF s.lanes, rfl, rfl, rfl, rfl, rfl, rfl⟩

/-! ### The whole core -/

/-- All that an operation of the permutation core can do: PERMUTE; or one function applied to the lanes, from every state;
or, for a round index above 23, a refusal from every state (R102). -/
theorem exec_of_block_prm {i : Instr} (h : i.block = .prm) :
    i = .permute ∨ (∃ f, ∀ s, exec i s = .next (s.mapLanes f)) ∨ ∃ why, ∀ s, exec i s = .refused why := by
  cases i with
  | theta => exact .inr (.inl ⟨_, exec_theta⟩)
  | rho => exact .inr (.inl ⟨_, exec_rho⟩)
  | pi => exact .inr (.inl ⟨_, exec_pi⟩)
  | chi => exact .inr (.inl ⟨_, exec_chi⟩)
  | iota imm =>
    rcases Nat.lt_or_ge imm.toNat 24 with hlt | hge
    · exact .inr (.inl ⟨_, exec_iota_of_toNat_eq (r := ⟨imm.toNat, hlt⟩) rfl⟩)
    · exact .inr (.inr ⟨_, exec_iota_of_ge hge⟩)
  | round imm =>
    rcases Nat.lt_or_ge imm.toNat 24 with hlt | hge
    · exact .inr (.inl ⟨_, exec_round_of_toNat_eq (r := ⟨imm.toNat, hlt⟩) rfl⟩)
    · exact .inr (.inr ⟨_, exec_round_of_ge hge⟩)
  | permute => exact .inl rfl
  | _ => cases h

/-- Settles O23: PERMUTE and the functions on the lanes read nothing but the lanes, and a refusal has no next state. -/
theorem permutationCoreIsPure : Obligations.PermutationCoreIsPure := by
  intro i s t s' hblock hlanes hexec
  rcases exec_of_block_prm hblock with rfl | ⟨f, hf⟩ | ⟨why, hwhy⟩
  case inl =>
    cases hexec
    exact ⟨rfl, rfl, rfl, rfl, rfl, rfl, fun hne => absurd rfl hne, t.permute, exec_permute t,
      by rw [State.permute_lanes, State.permute_lanes, hlanes]⟩
  case inr.inl =>
    cases (hf s).symm.trans hexec
    exact ⟨rfl, rfl, rfl, rfl, rfl, rfl, fun _ => rfl, t.mapLanes f, hf t,
      by rw [State.mapLanes_lanes, State.mapLanes_lanes, hlanes]⟩
  case inr.inr => cases (hwhy s).symm.trans hexec

end Sys2Proof.Machine
end

