-- ==== Sys2Proof/Proofs/Sponge.lean ====
section
/-! PROOFS. The sponge unit (41_sponge.md R110 to R117): the bytes of a little-endian lane, the padding as one byte string
that `pad` and PADBLK both append, and what each operation answers. -/

namespace Sys2Proof.Machine

/-! ### What the operations answer -/

theorem exec_clrst (s : State) : exec .clrst s = .next s.clear := rfl
theorem exec_putb (b : Byte) (s : State) : exec (.putb b) s = s.putByte b := rfl
theorem exec_padblk (s : State) : exec .padblk s = s.padBlock := rfl
theorem exec_absorb (s : State) : exec .absorb s = s.absorbBlock := rfl
theorem exec_squeeze (s : State) : exec .squeeze s = .next s.squeeze := rfl

/-! ### CLRST and PUTB -/

/-- Settles O24: the model's zero lanes are the replicated zero. -/
theorem clrstClearsLanesAndBuffer : Obligations.ClrstClearsLanesAndBuffer := by
  refine ⟨rfl, fun s => ?_⟩
  rw [exec_clrst, State.clear, zeroLanes_eq_replicate]

/-- Settles O25: the byte stands at the end of the list, which is index `BLEN`. -/
theorem putbAppendsOneByte : Obligations.PutbAppendsOneByte := by
  refine fun s b => ⟨rfl, fun hle => ⟨s.buf ++ [b], ?_, ?_, ?_, fun k hk => ?_⟩, fun hfull => ?_⟩
  · rw [exec_putb, putByte_of_le b s hle]
  · exact List.length_append
  · exact List.getElem?_concat_length
  · exact List.getElem?_append_left hk
  · rw [exec_putb, putByte_of_gt b s hfull]

/-! ### The padding -/

/-- The bytes that the padding rule appends to `n` bytes (R114). -/
def padding (n : Nat) : List Byte :=
  if n % 136 = 135 then [0x81] else [0x01] ++ List.replicate (136 - n % 136 - 2) 0x00 ++ [0x80]

theorem padding_of_mod_eq {n : Nat} (h : n % 136 = 135) : padding n = [0x81] := if_pos h

theorem padding_of_mod_ne {n : Nat} (h : n % 136 ≠ 135) :
    padding n = [0x01] ++ List.replicate (136 - n % 136 - 2) 0x00 ++ [0x80] := if_neg h

/-- The padding fills the block begun. -/
@[simp] theorem padding_length (n : Nat) : (padding n).length = 136 - n % 136 := by
  by_cases h : n % 136 = 135
  · rw [padding_of_mod_eq h, h]
    rfl
  · simp only [padding_of_mod_ne h, List.length_append, List.length_replicate, List.length_singleton]
    omega

theorem padding_congr {m n : Nat} (h : m % 136 = n % 136) : padding m = padding n := by rw [padding, padding, h]

/-- `pad` appends the padding of the length (R114). -/
theorem pad_eq_append_padding (t : List Byte) : pad t = t ++ padding t.length := by
  by_cases h : t.length % 136 = 135
  · have hq : 136 - t.length % 136 = 1 := by omega
    rw [pad, if_pos hq, padding_of_mod_eq h]
  · have hq : 136 - t.length % 136 ≠ 1 := by omega
    rw [pad, if_neg hq, padding_of_mod_ne h]
    simp only [List.append_assoc]

/-- PADBLK appends the padding of the tail's length (R115). -/
theorem padTail_eq_append_padding {t : List Byte} (h : t.length ≤ 135) : padTail t = t ++ padding t.length := by
  have hmod : t.length % 136 = t.length := Nat.mod_eq_of_lt (by omega)
  by_cases h135 : t.length = 135
  · rw [padTail, if_pos h135, padding_of_mod_eq (hmod.trans h135)]
    rfl
  · have hzeros : 136 - t.length % 136 - 2 = 134 - t.length := by omega
    rw [padTail, if_neg h135, padding_of_mod_ne (hmod.trans_ne h135), hzeros]
    simp only [List.append_assoc]

/-- Settles O30: `pad` appends the padding, whose bytes depend on the length modulo 136 and whose length fills the block. -/
theorem padRule : Obligations.PadRule := by
  refine ⟨fun t h => ?_, fun t h => ?_, fun t => ?_, fun t u h => ?_⟩
  · rw [pad_eq_append_padding, padding_of_mod_eq h]
  · rw [pad_eq_append_padding, padding_of_mod_ne h]
    simp only [List.append_assoc]
  · rw [pad_eq_append_padding, List.length_append, padding_length]
    omega
  · rw [pad_eq_append_padding, pad_eq_append_padding, List.drop_left, List.drop_left, padding_congr h]

/-! ### PADBLK -/

section
variable {n : Nat} (h : n < 135)
include h

/-- The padding of a tail that leaves room for two bytes, with its length in the block's terms. -/
theorem padding_of_lt : padding n = 0x01 :: (List.replicate (134 - n) 0x00 ++ [0x80]) := by
  have hmod : n % 136 = n := Nat.mod_eq_of_lt (by omega)
  have hzeros : 136 - n % 136 - 2 = 134 - n := by omega
  rw [padding_of_mod_ne (by omega), hzeros]
  rfl

theorem padding_getElem?_zero : (padding n)[0]? = some 0x01 := by
  rw [padding_of_lt h, List.getElem?_cons_zero]

theorem padding_getElem?_between {k : Nat} (hlo : n < k) (hhi : k < 135) : (padding n)[k - n]? = some 0x00 := by
  obtain ⟨j, rfl⟩ : ∃ j, k = n + (j + 1) := ⟨k - n - 1, by omega⟩
  have hj : j < 134 - n := by omega
  rw [padding_of_lt h, Nat.add_sub_cancel_left, List.getElem?_cons_succ,
    List.getElem?_append_left (by rwa [List.length_replicate]), List.getElem?_replicate_of_lt hj]

theorem padding_getElem?_last : (padding n)[135 - n]? = some 0x80 := by
  have hlast : 135 - n = (List.replicate (134 - n) (0x00 : Byte)).length + 1 := by
    rw [List.length_replicate]
    omega
  rw [padding_of_lt h, hlast, List.getElem?_cons_succ, List.getElem?_concat_length]

end

/-- Settles O26: the bytes past `BLEN` are those of the padding. -/
theorem padblkPadsTheTail : Obligations.PadblkPadsTheTail := by
  refine ⟨rfl, fun s => ?_⟩
  have hpad {k : Nat} (hk : s.blen ≤ k) : (s.buf ++ padding s.blen)[k]? = (padding s.blen)[k - s.blen]? :=
    List.getElem?_append_right hk
  refine ⟨fun hle => ⟨s.buf ++ padding s.blen, ?_, ?_, fun k hk => ?_, fun h135 => ?_, fun hne => ?_⟩,
    fun hfull => ?_⟩
  · rw [exec_padblk, padBlock_of_le s hle, padTail_eq_append_padding hle, State.blen]
  · rw [List.length_append, padding_length, ← State.blen]
    omega
  · exact List.getElem?_append_left hk
  · rw [hpad hle, h135, Nat.sub_self, padding_of_mod_eq rfl, List.getElem?_cons_zero]
  · have hlt : s.blen < 135 := Nat.lt_of_le_of_ne hle hne
    refine ⟨?_, fun k hlo hhi => ?_, ?_⟩
    · rw [hpad le_rfl, Nat.sub_self, padding_getElem?_zero hlt]
    · rw [hpad hlo.le, padding_getElem?_between hlt hlo hhi]
    · rw [hpad hle, padding_getElem?_last hlt]
  · rw [exec_padblk, padBlock_of_gt s hfull]

/-! ### ABSORB and SQUEEZE -/

/-- Dropping the low bytes of a little-endian value drops the first bytes of the sequence. -/
theorem leNat_shiftRight (s : List Byte) (j : Nat) : leNat s >>> (8 * j) = leNat (s.drop j) := by
  induction j generalizing s with
  | zero => rfl
  | succ j ih =>
    cases s with
    | nil => simp [leNat]
    | cons b bs =>
      have hshift : leNat (b :: bs) >>> 8 = leNat bs := by
        have hb := b.isLt
        rw [leNat, Nat.shiftRight_eq_div_pow]
        omega
      rw [Nat.mul_succ, Nat.add_comm, Nat.shiftRight_add, hshift, ih, List.drop_succ_cons]

/-- Byte `j` of a number's 64-bit lane is the byte that shifting by `8j` makes the lowest. -/
theorem laneByte_ofNat (n : Nat) {j : Nat} (hj : j < 8) :
    laneByte (BitVec.ofNat 64 n) j = BitVec.ofNat 8 (n >>> (8 * j)) := by
  refine BitVec.eq_of_getLsbD_eq fun i hi => ?_
  have hbit : 8 * j + i < 64 := by omega
  simp only [laneByte, BitVec.getLsbD_extractLsb', BitVec.getLsbD_ofNat, Nat.testBit_shiftRight, hi, hbit, decide_true,
    Bool.true_and]

/-- Byte `j` of a little-endian lane is byte `j` of the sequence (R14). -/
theorem laneByte_le64 {s : List Byte} {j : Nat} {b : Byte} (hj : j < 8) (hb : s[j]? = some b) :
    laneByte (le64 s) j = b := by
  obtain ⟨hlen, hget⟩ := List.getElem?_eq_some_iff.mp hb
  rw [le64, laneByte_ofNat _ hj, leNat_shiftRight, List.drop_eq_getElem_cons hlen, hget, leNat]
  refine BitVec.eq_of_toNat_eq ?_
  rw [BitVec.toNat_ofNat, Nat.add_mul_mod_self_left b.toNat 256, Nat.mod_eq_of_lt b.isLt]

/-- Entry `j` of a slice is entry `a + j` of the sequence (R14). -/
theorem slice_getElem? (m : List Byte) (a : Nat) {n j : Nat} (hj : j < n) : (slice m a n)[j]? = m[a + j]? := by
  rw [slice, List.getElem?_take_of_lt hj, List.getElem?_drop]

/-- What ABSORB's XOR adds to a rate lane is the block's lane. -/
theorem xor_xorBlock (A : Lanes) (P : List Byte) {i : Nat} (hi : i < 17) :
    A[i] ^^^ (xorBlock A P)[i] = le64 (slice P (8 * i) 8) := by
  have h25 : i < 25 := by omega
  rw [← lane_eq_getElem (xorBlock A P) i h25, lane_xorBlock A P i h25, if_pos hi, lane_eq_getElem A i h25,
    ← BitVec.xor_assoc, BitVec.xor_self, BitVec.zero_xor]

/-- Block byte `k` is what ABSORB's XOR adds to byte `k mod 8` of lane `floor(k / 8)` (R52). -/
theorem laneByte_xor_xorBlock (A : Lanes) {P : List Byte} {k : Nat} {b : Byte} (hk : k < 136) (hb : P[k]? = some b) :
    laneByte (A[k / 8] ^^^ (xorBlock A P)[k / 8]) (k % 8) = b := by
  have hmod : k % 8 < 8 := Nat.mod_lt k (by decide)
  rw [xor_xorBlock A P (by omega)]
  refine laneByte_le64 hmod ?_
  rw [slice_getElem? P _ hmod, Nat.div_add_mod, hb]

/-- Settles O27: `X` is the XOR of the block into the old lanes, and ABSORB leaves what PERMUTE makes of it. -/
theorem absorbXorsTheBlockAndPermutes : Obligations.AbsorbXorsTheBlockAndPermutes := by
  refine ⟨rfl, fun s => ⟨fun hfull => ⟨xorBlock s.lanes s.buf, _, _, fun k hk => ?_, fun i hi => ?_,
    exec_permute _, ?_⟩, fun hne => ?_⟩⟩
  · have hlen : k < s.buf.length := hk.trans_eq hfull.symm
    rw [List.getElem?_eq_getElem hlen]
    exact congrArg some (laneByte_xor_xorBlock s.lanes hk (List.getElem?_eq_getElem hlen))
  · have hcap : ¬ i.val < 17 := Nat.not_lt.mpr hi
    rw [Fin.getElem_fin, Fin.getElem_fin, ← lane_eq_getElem _ _ i.isLt, lane_xorBlock _ _ _ i.isLt, if_neg hcap,
      lane_eq_getElem _ _ i.isLt]
  · rw [exec_absorb, absorbBlock_of_eq s hfull]
  · rw [exec_absorb, absorbBlock_of_ne s hne]

/-- Settles O28: digest byte `8j + t` is byte `t` of lane `j`. -/
theorem squeezeSerialisesLanesZeroToThree : Obligations.SqueezeSerialisesLanesZeroToThree := by
  refine ⟨rfl, fun s => ⟨squeezeBytes s.lanes, exec_squeeze s, fun j t => ?_⟩⟩
  have hdiv : (8 * j.val + t.val) / 8 = j.val := by omega
  have hmod : (8 * j.val + t.val) % 8 = t.val := by omega
  rw [squeezeBytes_getElem, hdiv, hmod, lane_eq_getElem _ _ (by omega), laneByte]

end Sys2Proof.Machine
end

