-- ==== Sys2Proof/Proofs/Engine.lean ====
section
/-! PROOFS. The engine's commands (42_engine.md R126 to R129): what each answers in each phase, as one equation a case. -/

namespace Sys2Proof.Machine

/-! ### A full block absorbed -/

/-- The state after ABSORB of the block `P`, whatever the buffer held before (R116). -/
def State.afterBlock (P : List Byte) (s : State) : State := { (s.mapLanes fun A => xorBlock A P).permute with buf := [] }

section
variable (P : List Byte) (s : State)

@[simp] theorem State.afterBlock_lanes : (s.afterBlock P).lanes = keccakF (xorBlock s.lanes P) :=
  permuteLoop_eq_keccakF (xorBlock s.lanes P)
@[simp] theorem State.afterBlock_buf : (s.afterBlock P).buf = [] := rfl
@[simp] theorem State.afterBlock_phase : (s.afterBlock P).phase = s.phase := rfl
@[simp] theorem State.afterBlock_digest : (s.afterBlock P).digest = s.digest := rfl
@[simp] theorem State.afterBlock_resp : (s.afterBlock P).resp = s.resp := rfl
@[simp] theorem State.afterBlock_pending : (s.afterBlock P).pending = s.pending := rfl
@[simp] theorem State.afterBlock_hostRead : (s.afterBlock P).hostRead = s.hostRead := rfl

end

theorem absorbBlock_withBuf (s : State) {P : List Byte} (h : P.length = 136) :
    ({ s with buf := P } : State).absorbBlock = .next (s.afterBlock P) := if_pos h

/-- The byte after 135 buffered ones fills the block. -/
theorem length_append_of_blen_eq {s : State} (h : s.blen = 135) (b : Byte) : (s.buf ++ [b]).length = 136 := by
  rw [List.length_append, List.length_singleton, ← State.blen, h]

/-! ### What the commands answer -/

/-- INIT, in both phases (R126). -/
theorem exec_init (s : State) :
    exec .init s = .next { s.clear with phase := .absorbing, digest := none, resp := respOk } := rfl

theorem exec_updb (b : Byte) (s : State) : exec (.updb b) s = execUpdb b s := rfl
theorem exec_updz (s : State) : exec .updz s = execUpdz s := rfl
theorem exec_final (s : State) : exec .final s = execFinal s := rfl

/-- The one exception: every other command while Finalized (R147, R152). -/
theorem exec_of_finalized {i : Instr} {s : State} (hblock : i.block = .eng) (hne : i ≠ .init)
    (hp : s.phase = .finalized) : exec i s = .next s.raiseInvalidState := by
  cases i with
  | init => exact absurd rfl hne
  | updb b => rw [exec_updb, execUpdb, whileAbsorbing_finalized hp]
  | updz => rw [exec_updz, execUpdz, whileAbsorbing_finalized hp]
  | final => rw [exec_final, execFinal, whileAbsorbing_finalized hp]
  | _ => cases hblock

section
variable {s : State} (hp : s.phase = .absorbing)
include hp

/-- UPDZ (R128). -/
theorem exec_updz_of_absorbing : exec .updz s = .next s.respondOk := by
  rw [exec_updz, execUpdz, whileAbsorbing_absorbing hp]

/-- UPDB of a byte that does not fill the block (R127). -/
theorem exec_updb_of_lt (b : Byte) (h : s.blen < 135) :
    exec (.updb b) s = .next { s with buf := s.buf ++ [b], resp := respOk } := by
  have hroom : ({ s with buf := s.buf ++ [b] } : State).blen ≠ 136 := by
    rw [State.blen, List.length_append, List.length_singleton, ← State.blen]
    omega
  rw [exec_updb, execUpdb, whileAbsorbing_absorbing hp, putByte_of_le b s h.le, andThen_next, absorbIfFull_of_ne _ hroom,
    andThen_next]
  rfl

/-- UPDB of the byte that fills the block (R127). -/
theorem exec_updb_of_eq (b : Byte) (h : s.blen = 135) :
    exec (.updb b) s = .next (s.afterBlock (s.buf ++ [b])).respondOk := by
  have hfull : ({ s with buf := s.buf ++ [b] } : State).blen = 136 := length_append_of_blen_eq h b
  rw [exec_updb, execUpdb, whileAbsorbing_absorbing hp, putByte_of_le b s h.le, andThen_next, absorbIfFull_of_eq _ hfull,
    absorbBlock_withBuf s hfull, andThen_next]

/-- FINAL (R129). -/
theorem exec_final_of_le (h : s.blen ≤ 135) :
    exec .final s =
      .next { (s.afterBlock (padTail s.buf)).squeeze with phase := .finalized, resp := respOk } := by
  rw [exec_final, execFinal, whileAbsorbing_absorbing hp, padBlock_of_le s h, andThen_next,
    absorbBlock_withBuf s (padTail_length s.buf h), andThen_next]
  rfl

end

/-! ### The rules -/

/-- Settles O32: a second INIT writes the values that the first one left, and they are those of reset. -/
theorem initBeginsAComputation : Obligations.InitBeginsAComputation := by
  refine ⟨rfl, fun s => ?_, fun s => ?_, ?_⟩
  · rw [exec_init, State.clear, zeroLanes_eq_replicate]
    rfl
  · rw [execAll_cons_of_next (exec_init s), execAll_cons_of_next (exec_init _), exec_init]
    rfl
  · rw [exec_init, State.clear, zeroLanes_eq_replicate]
    rfl

/-- Settles O33: the byte is buffered, and the block is absorbed exactly when the byte fills it. -/
theorem updbFeedsOneByte : Obligations.UpdbFeedsOneByte := by
  refine fun s b => ⟨rfl, exec_of_finalized rfl nofun, fun hp => exec_updb_of_lt hp b, fun hp h =>
    ⟨s.afterBlock (s.buf ++ [b]), ?_, rfl, exec_updb_of_eq hp b h⟩⟩
  have hputb := (exec_putb b s).trans (putByte_of_le b s h.le)
  have habsorb := (exec_absorb _).trans (absorbBlock_withBuf s (length_append_of_blen_eq h b))
  rw [execAll_cons_of_next hputb, execAll_cons_of_next habsorb, execAll]

/-- Settles O34: the response is all that UPDZ writes, in either phase. -/
theorem updzChangesRespOnly : Obligations.UpdzChangesRespOnly :=
  ⟨rfl, fun _ => ⟨exec_of_finalized rfl nofun, exec_updz_of_absorbing⟩⟩

/-- Settles O35: padding a tail of at most 135 bytes makes one whole block, so ABSORB runs, and SQUEEZE after it. -/
theorem finalPadsAbsorbsAndSqueezes : Obligations.FinalPadsAbsorbsAndSqueezes := by
  refine ⟨rfl, fun s => ⟨exec_of_finalized rfl nofun, fun hp h =>
    ⟨(s.afterBlock (padTail s.buf)).squeeze, ?_, rfl, rfl, exec_final_of_le hp h⟩⟩⟩
  have hpadblk := (exec_padblk s).trans (padBlock_of_le s h)
  have habsorb := (exec_absorb _).trans (absorbBlock_withBuf s (padTail_length s.buf h))
  rw [execAll_cons_of_next hpadblk, execAll_cons_of_next habsorb, execAll_cons_of_next (exec_squeeze _), execAll]

end Sys2Proof.Machine
end

