-- ==== Sys2Proof/Proofs/Hash.lean ====
section
/-! PROOFS. HASH (42_engine.md R130, R131): the engine absorbs the message block by block as the bytes arrive, and FINAL the
padded tail, so that the lanes are always those of `absorb_all` (41_sponge.md R119, R120). -/

namespace Sys2Proof.Machine

/-! ### Blocks absorbed in order -/

/-- Only the first `n` blocks are looked at. -/
theorem absorbBlocks_append (A : Lanes) {n : Nat} {P : List Byte} (Q : List Byte) (h : 136 * n ≤ P.length) :
    absorbBlocks A n (P ++ Q) = absorbBlocks A n P := by
  induction n generalizing A P with
  | zero => rfl
  | succ n ih =>
    have hfirst : 136 ≤ P.length := by omega
    have hrest : 136 * n ≤ (P.drop 136).length := by
      rw [List.length_drop]
      omega
    rw [absorbBlocks, absorbBlocks, List.take_append_of_le_length hfirst, List.drop_append_of_le_length hfirst, ih _ hrest]

/-- The last of `n + 1` blocks is absorbed after the first `n`. -/
theorem absorbBlocks_succ (A : Lanes) (n : Nat) (P : List Byte) :
    absorbBlocks A (n + 1) P = keccakF (xorBlock (absorbBlocks A n P) (P.drop (136 * n))) := by
  induction n generalizing A P with
  | zero => simp only [absorbBlocks, xorBlock_take, Nat.mul_zero, List.drop_zero]
  | succ n ih =>
    have hdrop : (P.drop 136).drop (136 * n) = P.drop (136 * (n + 1)) := by
      rw [List.drop_drop]
      congr 1
      omega
    rw [absorbBlocks, ih, hdrop, ← absorbBlocks]

/-! ### The tail of a message -/

/-- The bytes of a message after its full blocks, which the buffer holds (R41 (c)). -/
def messageTail (m : List Byte) : List Byte := m.drop (m.length - m.length % 136)

theorem messageTail_length (m : List Byte) : (messageTail m).length = m.length % 136 := by
  rw [messageTail, List.length_drop]
  omega

theorem messageTail_append_of_lt {m q : List Byte} (h : m.length % 136 + q.length < 136) :
    messageTail (m ++ q) = messageTail m ++ q := by
  have hfull : (m ++ q).length - (m ++ q).length % 136 = m.length - m.length % 136 := by
    rw [List.length_append]
    omega
  rw [messageTail, hfull, List.drop_append_of_le_length (by omega), ← messageTail]

theorem messageTail_append_of_eq {m q : List Byte} (h : m.length % 136 + q.length = 136) : messageTail (m ++ q) = [] := by
  refine List.eq_nil_of_length_eq_zero ?_
  rw [messageTail_length, List.length_append]
  omega

/-- Bytes that do not fill the block begun are not absorbed. -/
theorem absorbAll_append_of_lt {m q : List Byte} (h : m.length % 136 + q.length < 136) :
    absorbAll (m ++ q) = absorbAll m := by
  have hblocks : (m ++ q).length / 136 = m.length / 136 := by
    rw [List.length_append]
    omega
  rw [absorbAll, hblocks, absorbBlocks_append _ _ (Nat.mul_div_le _ _), ← absorbAll]

/-- Bytes that fill the block begun are absorbed with the tail before them. -/
theorem absorbAll_append_of_eq {m q : List Byte} (h : m.length % 136 + q.length = 136) :
    absorbAll (m ++ q) = keccakF (xorBlock (absorbAll m) (messageTail m ++ q)) := by
  have hblocks : (m ++ q).length / 136 = m.length / 136 + 1 := by
    rw [List.length_append]
    omega
  have hfull : 136 * (m.length / 136) = m.length - m.length % 136 := by omega
  rw [absorbAll, hblocks, absorbBlocks_succ, absorbBlocks_append _ _ (Nat.mul_div_le _ _), ← absorbAll, hfull,
    List.drop_append_of_le_length (by omega), ← messageTail]

/-- Padding the tail fills the block that padding the message fills: the digest is that of one more block (R120, R121). -/
theorem keccak256_eq (m : List Byte) :
    keccak256 m = squeezeBytes (keccakF (xorBlock (absorbAll m) (padTail (messageTail m)))) := by
  have hlt : m.length % 136 < 136 := Nat.mod_lt _ (by decide)
  have hfills : m.length % 136 + (padding m.length).length = 136 := by
    rw [padding_length]
    omega
  have htail : padTail (messageTail m) = messageTail m ++ padding m.length := by
    rw [padTail_eq_append_padding (by rw [messageTail_length]; omega), messageTail_length,
      padding_congr (Nat.mod_mod m.length 136)]
  rw [keccak256, pad_eq_append_padding, absorbAll_append_of_eq hfills, htail]

/-! ### The engine invariant along the commands -/

theorem EngineInv.digest_eq_none {s : State} {m : List Byte} (h : EngineInv s m) (hp : s.phase = .absorbing) :
    s.digest = none := by
  cases hd : s.digest with
  | none => rfl
  | some d =>
    have hfin : s.phase = .finalized := h.digest_iff.1 (congrArg Option.isSome hd)
    cases hp.symm.trans hfin

/-- What the invariant asks while Absorbing (R41): no digest, the tail in the buffer, the full blocks absorbed. -/
theorem engineInv_of_absorbing {s : State} {m : List Byte} (hp : s.phase = .absorbing) (hdigest : s.digest = none)
    (hbuf : s.buf = messageTail m) (hlanes : s.lanes = absorbAll m) : EngineInv s m where
  blen_le := by
    rw [State.blen, hbuf, messageTail_length]
    omega
  digest_iff := by simp [hdigest, hp]
  blen_eq _ := by rw [State.blen, hbuf, messageTail_length]
  buf_eq _ := hbuf
  lanes_eq _ := hlanes
  digest_eq h := by cases hp.symm.trans h

/-- What the invariant asks while Finalized (R41): the digest of the message. -/
theorem engineInv_of_finalized {s : State} {m : List Byte} (hp : s.phase = .finalized) (hblen : s.blen ≤ 135)
    (hdigest : s.digest = some (keccak256 m)) : EngineInv s m where
  blen_le := hblen
  digest_iff := by simp [hdigest, hp]
  blen_eq h := by cases hp.symm.trans h
  buf_eq h := by cases hp.symm.trans h
  lanes_eq h := by cases hp.symm.trans h
  digest_eq _ := hdigest

/-- Commands have taken `s` to `t`, the last one answering OK: `t` is in phase `p`, meets the invariant for the message `m`
delivered so far, and the host's later actions are still to come. -/
structure ReachesOk (s t : State) (p : Phase) (m : List Byte) : Prop where
  inv        : EngineInv t m
  phase_eq   : t.phase = p
  resp_eq    : t.resp = respOk
  pending_eq : t.pending = s.pending

/-- INIT begins the empty message. -/
theorem exec_init_reachesOk (s : State) : ∃ t, exec .init s = .next t ∧ ReachesOk s t .absorbing [] :=
  ⟨_, exec_init s, engineInv_of_absorbing rfl rfl rfl rfl, rfl, rfl, rfl⟩

section
variable {s₀ s : State} {m : List Byte} (h : ReachesOk s₀ s .absorbing m)
include h

/-- UPDB delivers its byte: it joins the tail, or with the tail it is the next full block. -/
theorem ReachesOk.exec_updb (b : Byte) : ∃ t, exec (.updb b) s = .next t ∧ ReachesOk s₀ t .absorbing (m ++ [b]) := by
  obtain ⟨hinv, hp, -, hpending⟩ := h
  have hdigest := hinv.digest_eq_none hp
  have hblen : s.blen = m.length % 136 := hinv.blen_eq hp
  have hbuf : s.buf = messageTail m := hinv.buf_eq hp
  have hlanes : s.lanes = absorbAll m := hinv.lanes_eq hp
  rcases Nat.lt_or_eq_of_le hinv.blen_le with hlt | heq
  · have htail : m.length % 136 + [b].length < 136 := by
      rw [List.length_singleton]
      omega
    refine ⟨_, exec_updb_of_lt hp b hlt, engineInv_of_absorbing hp hdigest ?_ ?_, hp, rfl, hpending⟩
    · rw [messageTail_append_of_lt htail, hbuf]
    · rw [absorbAll_append_of_lt htail, hlanes]
  · have hblock : m.length % 136 + [b].length = 136 := by rw [← hblen, heq, List.length_singleton]
    refine ⟨_, exec_updb_of_eq hp b heq, engineInv_of_absorbing hp hdigest ?_ ?_, hp, rfl, hpending⟩
    · exact (messageTail_append_of_eq hblock).symm
    · rw [State.respondOk_lanes, State.afterBlock_lanes, absorbAll_append_of_eq hblock, hbuf, hlanes]

/-- UPDZ delivers nothing. -/
theorem ReachesOk.exec_updz : ∃ t, exec .updz s = .next t ∧ ReachesOk s₀ t .absorbing m := by
  obtain ⟨hinv, hp, -, hpending⟩ := h
  have hkept : EngineInv s.respondOk m :=
    engineInv_of_absorbing hp (hinv.digest_eq_none hp) (hinv.buf_eq hp) (hinv.lanes_eq hp)
  exact ⟨_, exec_updz_of_absorbing hp, hkept, hp, rfl, hpending⟩

/-- FINAL absorbs the padded tail and delivers the digest. -/
theorem ReachesOk.exec_final : ∃ t, exec .final s = .next t ∧ ReachesOk s₀ t .finalized m := by
  obtain ⟨hinv, hp, -, hpending⟩ := h
  refine ⟨_, exec_final_of_le hp hinv.blen_le, engineInv_of_finalized rfl (Nat.zero_le _) ?_, rfl, rfl, hpending⟩
  rw [State.squeeze_digest, State.afterBlock_lanes, keccak256_eq, hinv.buf_eq hp, hinv.lanes_eq hp, ← messageTail,
    ← absorbAll]

end

/-! ### The host's command streams -/

/-- The word of an engine's command, handed over at `CMD`, is executed (R75, R77). -/
theorem takeAction_encode {i : Instr} (hblock : i.block = .eng) (s : State) :
    takeAction (.word .cmd (encode i)) s = exec i s := by
  have hdecode : decodeAt .cmd (encode i) = .ok i := decodeAt_eq_ok_iff.2 ⟨decode_encode (wf_of_block_eng hblock), hblock⟩
  rw [takeAction, issue, hdecode]

/-- After a command that answers OK the host goes on (R130). -/
theorem issueAll_cons_of_ok {i : Instr} {s t : State} (hblock : i.block = .eng) (hexec : exec i s = .next t)
    (hresp : t.resp = respOk) (is : List Instr) : issueAll (i :: is) s = issueAll is t := by
  rw [issueAll, takeAction_encode hblock, hexec, andThen_next, if_pos hresp]

/-- The bytes that a stream of UPDZ and UPDB commands delivers. -/
def deliveredBytes (is : List Instr) : List Byte := is.filterMap fun i => if i = .updz then none else some i.imm8

theorem deliveredBytes_updz_cons (is : List Instr) : deliveredBytes (.updz :: is) = deliveredBytes is := rfl
theorem deliveredBytes_updb_cons (b : Byte) (is : List Instr) :
    deliveredBytes (.updb b :: is) = b :: deliveredBytes is := rfl

/-- A stream of UPDZ and UPDB commands answers OK throughout and delivers its bytes in order (R130, R133). -/
theorem issueAll_updates (is : List Instr) (hupd : ∀ i ∈ is, i = .updz ∨ ∃ b, i = .updb b) (rest : List Instr)
    {s₀ s : State} {m : List Byte} (h : ReachesOk s₀ s .absorbing m) :
    ∃ t, issueAll (is ++ rest) s = issueAll rest t ∧ ReachesOk s₀ t .absorbing (m ++ deliveredBytes is) := by
  induction is generalizing s m with
  | nil => exact ⟨s, rfl, by rwa [deliveredBytes, List.filterMap_nil, List.append_nil]⟩
  | cons i is ih =>
    obtain ⟨hi, his⟩ := List.forall_mem_cons.1 hupd
    rw [List.cons_append]
    rcases hi with rfl | ⟨b, rfl⟩
    · obtain ⟨u, hu, hreach⟩ := h.exec_updz
      rw [issueAll_cons_of_ok rfl hu hreach.resp_eq, deliveredBytes_updz_cons]
      exact ih his hreach
    · obtain ⟨u, hu, hreach⟩ := h.exec_updb b
      rw [issueAll_cons_of_ok rfl hu hreach.resp_eq, deliveredBytes_updb_cons, List.append_cons]
      exact ih his hreach

/-- From any state, INIT, a stream of UPDZ and UPDB commands, and FINAL. -/
theorem issueAll_init_updates_final (s : State) (is : List Instr) (hupd : ∀ i ∈ is, i = .updz ∨ ∃ b, i = .updb b) :
    ∃ t, issueAll (.init :: is ++ [.final]) s = .next t ∧ ReachesOk s t .finalized (deliveredBytes is) := by
  obtain ⟨u, hinit, hu⟩ := exec_init_reachesOk s
  obtain ⟨v, hupdates, hv⟩ := issueAll_updates is hupd [.final] hu
  obtain ⟨t, hfinal, ht⟩ := hv.exec_final
  refine ⟨t, ?_, ht⟩
  rw [List.cons_append, issueAll_cons_of_ok rfl hinit hu.resp_eq, hupdates,
    issueAll_cons_of_ok rfl hfinal ht.resp_eq, issueAll]

theorem mem_updateInstrs {c : List Byte} {i : Instr} (h : i ∈ updateInstrs c) : i = .updz ∨ ∃ b, i = .updb b := by
  cases c with
  | nil => exact .inl (List.mem_singleton.1 h)
  | cons b bs =>
    obtain ⟨b', -, rfl⟩ := List.mem_map.1 h
    exact .inr ⟨b', rfl⟩

/-- UPDATE delivers its chunk (R130). -/
theorem deliveredBytes_updateInstrs (c : List Byte) : deliveredBytes (updateInstrs c) = c := by
  cases c with
  | nil => rfl
  | cons b bs =>
    rw [updateInstrs, deliveredBytes, List.filterMap_map]
    exact List.filterMap_some

/-- A read while Finalized hands back the digest and leaves the engine as it is (R56, R58). -/
theorem takeAction_readDigest_of_some {s : State} {d : DigestBytes} (hp : s.phase = .finalized)
    (hdigest : s.digest = some d) :
    ∃ t, takeAction .readDigest s = .next t ∧ t.hostRead = d.toList ∧ t.digest = some d ∧ t.phase = .finalized ∧
      t.resp = s.resp ∧ t.pending = s.pending :=
  ⟨s.handBack d.toList, readFromDigest_of_some _ hp hdigest, rfl, hdigest, hp, rfl, rfl⟩

/-- Settles O45: HASH is INIT, the UPDB commands of the message (or one UPDZ) and FINAL, after which the invariant says that
`DIGEST` is the message's and the read hands it back. -/
theorem hashDeliversKeccak256 : Obligations.HashDeliversKeccak256 := by
  intro s m
  obtain ⟨u, hissue, hinv, hphase, hresp, hpending⟩ :=
    issueAll_init_updates_final s (updateInstrs m) fun _ => mem_updateInstrs
  rw [deliveredBytes_updateInstrs] at hinv
  obtain ⟨t, hread, hbytes, ht, hpt, hrt, hnt⟩ := takeAction_readDigest_of_some hphase (hinv.digest_eq hphase)
  refine ⟨t, ?_, hbytes, ht, hpt, hrt.trans hresp, hnt.trans hpending⟩
  rw [hostHash, hashInstrs, hissue, andThen_next, hread]

end Sys2Proof.Machine
end

