-- ==== Sys2Proof/Proofs/Hex.lean ====
section
/-! PROOFS. TOHEX and FROMHEX (42_engine.md R137): two digits a byte, and reading them back. -/

namespace Sys2Proof.Machine

/-! ### Digits -/

/-- The digits of R137 are those of `hexDigit`, in order. -/
theorem hexDigits_getElem? : ∀ n < 16, "0123456789abcdef".toList[n]? = some (hexDigit n) := by decide

theorem hexDigit_mem {n : Nat} (h : n < 16) : hexDigit n ∈ "0123456789abcdef".toList :=
  List.mem_of_getElem? (hexDigits_getElem? n h)

theorem hexValue_hexDigit : ∀ n < 16, hexValue (hexDigit n) = some n := by decide

/-- Both nibbles of a byte are below 16. -/
theorem nibbles_lt (v : Byte) : v.toNat / 16 < 16 ∧ v.toNat % 16 < 16 := by
  have := v.isLt
  omega

/-- A byte is its two nibbles. -/
theorem ofNat_nibbles (v : Byte) : BitVec.ofNat 8 (16 * (v.toNat / 16) + v.toNat % 16) = v := by
  rw [Nat.div_add_mod, BitVec.ofNat_toNat, BitVec.setWidth_eq]

/-! ### Strings of digits -/

theorem toHexChars_cons (v : Byte) (bs : List Byte) :
    toHexChars (v :: bs) = hexDigit (v.toNat / 16) :: hexDigit (v.toNat % 16) :: toHexChars bs := rfl

theorem toHexChars_length (bytes : List Byte) : (toHexChars bytes).length = 2 * bytes.length := by
  induction bytes with
  | nil => rfl
  | cons v bs ih =>
    rw [toHexChars_cons, List.length_cons, List.length_cons, List.length_cons, ih]
    omega

/-- Byte `k` gives the characters `2k` and `2k + 1`, the high nibble first. -/
theorem toHexChars_getElem? {bytes : List Byte} {k : Nat} {v : Byte} (h : bytes[k]? = some v) :
    (toHexChars bytes)[2 * k]? = some (hexDigit (v.toNat / 16)) ∧
    (toHexChars bytes)[2 * k + 1]? = some (hexDigit (v.toNat % 16)) := by
  induction bytes generalizing k with
  | nil => cases h
  | cons u bs ih =>
    rw [toHexChars_cons]
    cases k with
    | zero =>
      cases h
      exact ⟨rfl, rfl⟩
    | succ k => exact ih h

theorem mem_toHexChars {bytes : List Byte} {c : Char} (h : c ∈ toHexChars bytes) : ∃ n < 16, c = hexDigit n := by
  obtain ⟨v, -, hc⟩ := List.mem_flatMap.1 h
  obtain ⟨hhi, hlo⟩ := nibbles_lt v
  rcases List.mem_pair.1 hc with rfl | rfl
  · exact ⟨_, hhi, rfl⟩
  · exact ⟨_, hlo, rfl⟩

/-- FROMHEX reads back what TOHEX writes. -/
theorem fromHexChars_toHexChars (bytes : List Byte) : fromHexChars (toHexChars bytes) = some bytes := by
  induction bytes with
  | nil => rfl
  | cons v bs ih =>
    obtain ⟨hhi, hlo⟩ := nibbles_lt v
    rw [toHexChars_cons, fromHexChars, hexValue_hexDigit _ hhi, hexValue_hexDigit _ hlo, ih]
    exact congrArg (fun u => some (u :: bs)) (ofNat_nibbles v)

/-- Settles O50: each byte gives the digits of its two nibbles, and two digits give back the byte. -/
theorem toHexRendersEachByte : Obligations.ToHexRendersEachByte := by
  refine fun bytes => ⟨toHexChars_length bytes, fun k v h => ?_, fun c hc => ?_, fromHexChars_toHexChars bytes,
    String.toList_ofList⟩
  · obtain ⟨hhi, hlo⟩ := nibbles_lt v
    rw [hexDigits_getElem? _ hhi, hexDigits_getElem? _ hlo]
    exact toHexChars_getElem? h
  · obtain ⟨n, hn, rfl⟩ := mem_toHexChars hc
    exact hexDigit_mem hn

end Sys2Proof.Machine
end

