-- ==== Sys2Proof/Proofs/Exceptions.lean ====
section
/-! PROOFS. The one exception (60_exceptions.md R147, R152, R154): which instructions write `RESP`, with which code, and that
an engine which has raised InvalidState raises it again without any further change. -/

namespace Sys2Proof.Machine

/-! ### What follows from a next state of the sponge unit's operations -/

theorem putByte_eq_next {b : Byte} {s t : State} (h : s.putByte b = .next t) :
    s.blen ≤ 135 ∧ t = { s with buf := s.buf ++ [b] } := by
  rcases Nat.lt_or_ge 135 s.blen with hfull | hroom
  · cases (putByte_of_gt b s hfull).symm.trans h
  · cases (putByte_of_le b s hroom).symm.trans h
    exact ⟨hroom, rfl⟩

theorem padBlock_eq_next {s t : State} (h : s.padBlock = .next t) :
    s.blen ≤ 135 ∧ t = { s with buf := padTail s.buf } := by
  rcases Nat.lt_or_ge 135 s.blen with hfull | hroom
  · cases (padBlock_of_gt s hfull).symm.trans h
  · cases (padBlock_of_le s hroom).symm.trans h
    exact ⟨hroom, rfl⟩

theorem absorbBlock_eq_next {s t : State} (h : s.absorbBlock = .next t) : s.blen = 136 ∧ t = s.afterBlock s.buf := by
  by_cases hfull : s.blen = 136
  · cases (absorbBlock_withBuf s hfull).symm.trans h
    exact ⟨hfull, rfl⟩
  · cases (absorbBlock_of_ne s hfull).symm.trans h

/-! ### Who writes `RESP` -/

/-- A command of the engine that does not raise the exception ends by writing OK (R148). -/
theorem resp_of_exec_eng {i : Instr} {s t : State} (hblock : i.block = .eng) (hok : i = .init ∨ s.phase = .absorbing)
    (h : exec i s = .next t) : t.resp = respOk := by
  cases i with
  | init =>
    cases (exec_init s).symm.trans h
    rfl
  | updb b =>
    rw [exec_updb, execUpdb, whileAbsorbing_absorbing (hok.resolve_left nofun)] at h
    obtain ⟨u, -, hu⟩ := andThen_eq_next h
    obtain ⟨v, -, hv⟩ := andThen_eq_next hu
    cases hv
    rfl
  | updz =>
    cases (exec_updz_of_absorbing (hok.resolve_left nofun)).symm.trans h
    rfl
  | final =>
    rw [exec_final, execFinal, whileAbsorbing_absorbing (hok.resolve_left nofun)] at h
    obtain ⟨u, -, hu⟩ := andThen_eq_next h
    obtain ⟨v, -, hv⟩ := andThen_eq_next hu
    cases hv
    rfl
  | _ => cases hblock

/-- No operation of the sponge unit writes `RESP` (R76, R110). -/
theorem resp_of_exec_spg {i : Instr} {s t : State} (hblock : i.block = .spg) (h : exec i s = .next t) :
    t.resp = s.resp := by
  cases i with
  | clrst =>
    cases (exec_clrst s).symm.trans h
    rfl
  | putb b =>
    obtain ⟨-, rfl⟩ := putByte_eq_next ((exec_putb b s).symm.trans h)
    rfl
  | padblk =>
    obtain ⟨-, rfl⟩ := padBlock_eq_next ((exec_padblk s).symm.trans h)
    rfl
  | absorb =>
    obtain ⟨-, rfl⟩ := absorbBlock_eq_next ((exec_absorb s).symm.trans h)
    rfl
  | squeeze =>
    cases (exec_squeeze s).symm.trans h
    rfl
  | _ => cases hblock

/-- No operation of the permutation core writes `RESP` (R76, R102). -/
theorem resp_of_exec_prm {i : Instr} {s t : State} (hblock : i.block = .prm) (h : exec i s = .next t) :
    t.resp = s.resp := by
  rcases exec_of_block_prm hblock with rfl | ⟨f, hf⟩ | ⟨why, hwhy⟩
  · cases (exec_permute s).symm.trans h
    rfl
  · cases (hf s).symm.trans h
    rfl
  · cases (hwhy s).symm.trans h

/-- Settles O36: the exception is the check before the command, every other command of the engine ends with OK, and the
operations of the two inner blocks have no response. -/
theorem invalidStateExactlyWhenFinalized : Obligations.InvalidStateExactlyWhenFinalized := by
  refine fun i s t hexec => ⟨fun hblock hne hp => ?_, fun hblock hok => resp_of_exec_eng hblock hok hexec,
    fun hblock => ?_⟩
  · cases (exec_of_finalized hblock hne hp).symm.trans hexec
    rfl
  · cases hb : i.block with
    | eng => exact absurd hb hblock
    | spg => exact resp_of_exec_spg hb hexec
    | prm => exact resp_of_exec_prm hb hexec

/-! ### Streams of commands while Finalized -/

/-- A list that steps on hands its next state to the list after it. -/
theorem execAll_append_of_next {is : List Instr} {s t : State} (h : execAll is s = .next t) (js : List Instr) :
    execAll (is ++ js) s = execAll js t := by
  induction is generalizing s with
  | nil =>
    cases h
    rfl
  | cons i is ih =>
    rw [execAll] at h
    obtain ⟨u, hu, hrest⟩ := andThen_eq_next h
    rw [List.cons_append, execAll_cons_of_next hu, ih hrest]

section
variable {s : State} (hp : s.phase = .finalized)
include hp

/-- Having raised InvalidState, the engine only writes the same code again, whatever follows but INIT (R154). -/
theorem execAll_raiseInvalidState {is : List Instr} (h : ∀ i ∈ is, i.block = .eng ∧ i ≠ .init) :
    execAll is s.raiseInvalidState = .next s.raiseInvalidState := by
  induction is with
  | nil => rfl
  | cons i is ih =>
    obtain ⟨⟨hblock, hne⟩, his⟩ := List.forall_mem_cons.1 h
    have hagain : exec i s.raiseInvalidState = .next s.raiseInvalidState := exec_of_finalized hblock hne hp
    rw [execAll_cons_of_next hagain, ih his]

/-- A stream of commands without INIT has the effect of its first one. -/
theorem execAll_of_finalized {is : List Instr} (hne : is ≠ []) (h : ∀ i ∈ is, i.block = .eng ∧ i ≠ .init) :
    execAll is s = .next s.raiseInvalidState := by
  cases is with
  | nil => exact absurd rfl hne
  | cons i is =>
    obtain ⟨⟨hblock, hinit⟩, his⟩ := List.forall_mem_cons.1 h
    rw [execAll_cons_of_next (exec_of_finalized hblock hinit hp), execAll_raiseInvalidState hp his]

end

/-- Settles O37: the first command raises the exception, the others change nothing, and INIT is valid in every phase. -/
theorem finalizedRejectsUntilInit : Obligations.FinalizedRejectsUntilInit := by
  intro s is hp hne h
  have hraised := execAll_of_finalized hp hne h
  have hinit := (execAll_append_of_next hraised [.init]).trans (execAll_cons_of_next (exec_init _) [])
  exact ⟨hraised, _, hinit, rfl, rfl, rfl, rfl⟩

end Sys2Proof.Machine
end

