-- ==== Sys2Proof/Proofs/RoundTrip.lean ====
section
/-! PROOFS. Decoder and encoder undo each other (30_encoding.md R70 to R78), also where a word is given as the opcode table
numbers its bits, and a port takes the words of its own block. -/

namespace Sys2Proof.Machine

/-- The low 16 bits of a word's number are the word. -/
theorem ofNat_toNat_mod (w : CmdWord) : BitVec.ofNat 16 (w.toNat % 2 ^ 16) = w := by
  rw [Nat.mod_eq_of_lt w.isLt, BitVec.ofNat_toNat, BitVec.setWidth_eq]

/-- A word numbered as the opcode table numbers its bits decodes as itself. -/
theorem decodeTableWord_toNat (w : CmdWord) : decodeTableWord 16 w.toNat = (decode w).toOption := by
  rw [decodeTableWord, if_pos le_rfl, ofNat_toNat_mod]

/-- Settles O3: the decoder reads back the three fields that the encoder writes. -/
theorem decodeOfEncodeIsTheInstruction : Obligations.DecodeOfEncodeIsTheInstruction := by
  intro i hwf
  refine ⟨decode_encode hwf, ?_⟩
  rw [decodeTableWord_toNat, decode_encode hwf, Except.toOption]

/-- Settles O4: a word that decodes has the fields of its instruction's word, and a word is its fields. -/
theorem encodeOfDecodeIsTheWord : Obligations.EncodeOfDecodeIsTheWord := by
  intro w i h
  obtain ⟨hw, hwf⟩ := decode_eq_ok_iff.1 h
  exact ⟨hw.symm, hwf⟩

/-- Settles O6: after decoding, a port compares the block with its own. -/
theorem portsTakeTheirOwnBlockOnly : Obligations.PortsTakeTheirOwnBlockOnly :=
  fun _ _ _ => decodeAt_eq_ok_iff

/-- Settles O1: the decoder and the encoder evaluated on the words of the spec's table. -/
theorem workedEncodingsDecode : Obligations.WorkedEncodingsDecode := by
  unfold Obligations.WorkedEncodingsDecode
  decide

/-- What decodes is well-formed, so a round index above 23 has no word (R72, R78). -/
theorem decode_ne_ok_of_not_wf {i : Instr} (h : ¬ i.wf = true) (w : CmdWord) : decode w ≠ .ok i :=
  fun hdecode => h (decode_eq_ok_iff.1 hdecode).2

/-- Settles O20: IOTA and ROUND with such an index are not well-formed, and their meanings have no such round. -/
theorem roundIndexAbove23IsRefused : Obligations.RoundIndexAbove23IsRefused := by
  intro imm himm
  have hwf : ¬ decide (imm.toNat ≤ 23) = true := by rwa [decide_eq_true_eq, Nat.not_le]
  exact ⟨fun w => ⟨decode_ne_ok_of_not_wf (i := .iota imm) hwf w, decode_ne_ok_of_not_wf (i := .round imm) hwf w⟩,
    fun s => ⟨exec_iota_of_ge himm s, exec_round_of_ge himm s⟩⟩

end Sys2Proof.Machine
end

