-- ==== Sys2Proof/Proofs/Step.lean ====
section
/-! PROOFS. The step (20_memory.md R57 to R61, 70_reset_and_hazards.md R165 to R167, R180): what it does with the action
that is next, and what each kind of action does. -/

namespace Sys2Proof.Machine

/-! ### The next action -/

theorem step_of_pending_nil {s : State} (h : s.pending = []) : step s = .next s := by
  rw [step, stepEngine, h]

theorem step_of_pending_cons {s : State} {a : HostAction} {rest : List HostAction} (h : s.pending = a :: rest) :
    step s = takeAction a { s with pending := rest } := by
  rw [step, stepEngine, h]

/-- A word that its port decodes to an instruction is that instruction executed (R75, R77). -/
theorem takeAction_word_of_ok {p : Port} {w : CmdWord} {i : Instr} (h : decodeAt p w = .ok i) (s : State) :
    takeAction (.word p w) s = exec i s := by
  rw [takeAction, issue, h]

theorem takeAction_word_of_error {p : Port} {w : CmdWord} {why : Reserved} (h : decodeAt p w = .error why) (s : State) :
    takeAction (.word p w) s = .refused (.reservedWord why) :=
  issue_of_reserved h s

/-- Settles O7: the step takes the word, and the port's decoder says what it is. -/
theorem stepRunsTheDecodedInstruction : Obligations.StepRunsTheDecodedInstruction := by
  intro s p w rest h
  rw [step_of_pending_cons h]
  exact ⟨fun i hi => takeAction_word_of_ok hi _, fun why hwhy => takeAction_word_of_error hwhy _⟩

/-- Settles O9: with an empty list there is no action to take. -/
theorem stepWaitsWhenNothingIsPending : Obligations.StepWaitsWhenNothingIsPending :=
  fun _ => step_of_pending_nil

/-! ### A placed word -/

/-- The port on which a block's words travel takes the words of that block. -/
theorem port_block (b : Block) : b.port.block = b := by
  cases b <;> rfl

/-- An instruction's word goes to the port of the instruction's block. -/
theorem actionOfWord_encode (i : Instr) : actionOfWord (encode i) = .word i.block.port (encode i) := by
  obtain ⟨hblk, -, -⟩ := fields_encode i
  rw [actionOfWord, hblk]
  cases i <;> simp only [Instr.row] <;> rfl

/-- Settles O8: the placed word goes to the port of its block, which decodes it back to the instruction. -/
theorem placedWordIsRunNext : Obligations.PlacedWordIsRunNext := by
  intro s i hwf
  have hdecode : decodeAt i.block.port (encode i) = .ok i :=
    decodeAt_eq_ok_iff.2 ⟨decode_encode hwf, (port_block i.block).symm⟩
  have hpending : (s.withFetchWord 16 (encode i).toNat).pending = .word i.block.port (encode i) :: s.pending := by
    rw [State.withFetchWord, ofNat_toNat_mod, actionOfWord_encode]
  rw [step_of_pending_cons hpending, takeAction_word_of_ok hdecode]
  rfl

/-! ### Reads -/

/-- Settles O10: a read hands bytes back, and that is all it writes. -/
theorem readsHaveNoSideEffect : Obligations.ReadsHaveNoSideEffect :=
  fun _ _ => ⟨step_of_pending_cons, step_of_pending_cons,
    fun _ h hp hd => (step_of_pending_cons h).trans (readFromDigest_of_some Vector.toList hp hd),
    fun h hp => (step_of_pending_cons h).trans (readFromDigest_of_absorbing Vector.toList hp)⟩

/-- The bytes of all 32 indices in order are the whole register. -/
theorem map_getElem_finRange (d : DigestBytes) : ((List.finRange 32).map fun k => d[k]) = d.toList := by
  refine List.ext_getElem (by simp) fun n hn hn' => ?_
  simp only [List.getElem_map, List.getElem_finRange, Vector.getElem_toList, Fin.getElem_fin, Fin.val_cast]

/-- Settles O52: the bytes handed back are the register's at the indices of the list, in the list's order. -/
theorem readsOfSomeDigestBytes : Obligations.ReadsOfSomeDigestBytes := by
  intro s rest ks h
  rw [step_of_pending_cons h]
  refine ⟨fun d hp hd => ⟨ks.map fun k => d[k], readFromDigest_of_some _ hp hd, List.length_map .., fun n k hk => ?_,
    fun hall => ?_⟩, fun hp => readFromDigest_of_absorbing _ hp⟩
  · rw [List.getElem?_map, hk, Option.map_some]
  · have hwhole : takeAction .readDigest { s with pending := rest } = .next _ :=
      readFromDigest_of_some Vector.toList hp hd
    have hsome : takeAction (.readDigestBytes ks) { s with pending := rest } = .next _ := readFromDigest_of_some _ hp hd
    rw [step_of_pending_cons rfl, hwhole, hsome, hall, map_getElem_finRange]

/-- Settles O11: the phase is a one-bit code, widened with zeros. -/
theorem statusShowsThePhase : Obligations.StatusShowsThePhase := by
  refine fun s => ⟨?_, fun n hlo hhi => ?_⟩
  · rw [State.status]
    cases s.phase <;> decide
  · rw [State.status, BitVec.getLsbD_setWidth, BitVec.getLsbD_of_ge _ n hlo, Bool.and_false]

/-! ### Reset -/

/-- A legal command cut short by reset leaves nothing of itself (R166). -/
theorem takeAction_resetDuring_of_legal {w : CmdWord} (h : w ∈ legalExternalWords) (s : State) :
    takeAction (.resetDuring w) s = .next s.assertReset := by
  obtain ⟨i, hi⟩ := exists_decodeAt_cmd_ok_iff.2 h
  rw [takeAction, hi]

/-- Settles O12: the values after reset are the definition's, and INIT's zero lanes are the replicated zero. -/
theorem resetAndInitValues : Obligations.ResetAndInitValues := by
  have hzero : ∀ i : Fin 25, (Vector.replicate 25 (0 : Lane))[i] = 0 := fun i => Vector.getElem_replicate i.isLt
  refine ⟨hzero, rfl, rfl, rfl, rfl, rfl, fun s => ⟨_, exec_init s, fun i => ?_, rfl, rfl, rfl, rfl, rfl⟩⟩
  rw [State.clear_lanes, zeroLanes_eq_replicate, hzero]

/-- Settles O13: either form of reset writes the reset values over the state. -/
theorem resetForgetsEverything : Obligations.ResetForgetsEverything := by
  intro s a rest hpending ha
  refine ⟨({ s with pending := rest } : State).assertReset, ?_, rfl, rfl, rfl, rfl, rfl, rfl, rfl⟩
  rw [step_of_pending_cons hpending]
  rcases ha with rfl | ⟨w, hw, rfl⟩
  · rfl
  · exact takeAction_resetDuring_of_legal hw _

end Sys2Proof.Machine
end

