-- ==== Sys2Proof/Proofs/LanesAndBytes.lean ====
section
/-! PROOFS. Facts about tables, lanes and bytes: the two constant tables (10_state.md R24, R25), the tables of PI
(40_permutation.md R95), the byte order of a lane (00_scope.md R14), and the padding of a tail (41_sponge.md R121). -/

namespace Sys2Proof.Machine

/-- Settles O49: both tables are short, and each fact is evaluated on every entry. -/
theorem constantTables : Obligations.ConstantTables := by
  unfold Obligations.ConstantTables
  refine ⟨by decide, by decide, by decide, by decide, by decide, by decide⟩

/-! ### PI as a table -/

/-- The table SRC of R95: the index of the lane that PI moves to lane `i`. -/
def piSource (i : Fin 25) : Fin 25 :=
  (#v[0, 6, 12, 18, 24, 3, 9, 10, 16, 22, 1, 7, 13, 19, 20, 4, 5, 11, 17, 23, 2, 8, 14, 15, 21] : Vector (Fin 25) 25)[i]

/-- The table DST of R95: the index of the lane to which PI moves lane `i`. -/
def piTarget (i : Fin 25) : Fin 25 :=
  (#v[0, 10, 20, 5, 15, 16, 1, 11, 21, 6, 7, 17, 2, 12, 22, 23, 8, 18, 3, 13, 14, 24, 9, 19, 4] : Vector (Fin 25) 25)[i]

theorem piSource_piTarget : ∀ i, piSource (piTarget i) = i ∧ piTarget (piSource i) = i := by decide

/-- SRC is the map of R94 on lane indices. -/
theorem laneIndex_piSource : ∀ i : Fin 25, laneIndex (i % 5 + 3 * (i / 5)) (i % 5) = piSource i := by decide

theorem piLanes_getElem (A : Lanes) (i : Fin 25) : (piLanes A)[i] = A[piSource i] := by
  have hlane : laneXY A (i % 5 + 3 * (i / 5)) (i % 5) = lane A (piSource i) := by rw [laneXY, laneIndex_piSource]
  rw [Fin.getElem_fin, piLanes, tabulateXY, tabulate_getElem _ _ i.isLt, hlane, lane_eq_getElem _ _ (piSource i).isLt]
  rfl

/-- Settles O17: SRC is the map of PI on lane indices, and DST its inverse. -/
theorem piFollowsTheTables : Obligations.PiFollowsTheTables := by
  refine ⟨piSource, piTarget, by decide, by decide, piSource_piTarget, fun s =>
    ⟨piLanes s.lanes, exec_pi s, fun i => ⟨piLanes_getElem s.lanes i, ?_⟩⟩⟩
  simp only [piLanes_getElem, (piSource_piTarget i).1]

/-! ### The bytes of a lane -/

/-- Two lanes are equal when their eight bytes are. -/
theorem lane_ext_bytes {v w : Lane} (h : ∀ j < 8, laneByte v j = laneByte w j) : v = w := by
  refine BitVec.eq_of_getLsbD_eq fun z hz => ?_
  have hbyte := congrArg (BitVec.getLsbD · (z % 8)) (h (z / 8) (by omega))
  have hpos : 8 * (z / 8) + z % 8 = z := Nat.div_add_mod z 8
  have hmod : z % 8 < 8 := Nat.mod_lt z (by decide)
  simpa only [laneByte, BitVec.getLsbD_extractLsb', hmod, hpos, decide_true, Bool.true_and] using hbyte

theorem bytesLe64_eq_map (v : Lane) : bytesLe64 v = (List.range 8).map (laneByte v) := rfl

theorem bytesLe64_getElem? (v : Lane) {j : Nat} (h : j < 8) : (bytesLe64 v)[j]? = some (laneByte v j) := by
  rw [bytesLe64_eq_map, List.getElem?_map, List.getElem?_range h, Option.map_some]

/-- The value of 8 bytes is below `2^64`, so the lane holds it exactly. -/
theorem toNat_le64 {s : List Byte} (h : s.length = 8) : (le64 s).toNat = leNat s := by
  have hlt := leNat_lt s
  rw [h] at hlt
  exact Nat.mod_eq_of_lt hlt

theorem le64_bytesLe64 (v : Lane) : le64 (bytesLe64 v) = v :=
  lane_ext_bytes fun _ hj => laneByte_le64 hj (bytesLe64_getElem? v hj)

theorem bytesLe64_le64 {s : List Byte} (h : s.length = 8) : bytesLe64 (le64 s) = s := by
  refine List.ext_getElem h.symm fun j hj hjs => ?_
  have hbyte := bytesLe64_getElem? (le64 s) hj
  rw [laneByte_le64 hj (List.getElem?_eq_getElem hjs)] at hbyte
  exact (List.getElem?_eq_some_iff.1 hbyte).2

/-- Settles O29: the value of 8 bytes fits the lane, and byte `j` of a lane is byte `j` of the sequence. -/
theorem littleEndianLanes : Obligations.LittleEndianLanes := by
  refine ⟨fun a b c d e f g h => ?_, le64_bytesLe64, fun s => bytesLe64_le64⟩
  rw [toNat_le64 rfl]
  simp only [leNat]
  omega

/-! ### The padding of a tail -/

/-- Settles O31: the padding depends on the length modulo 136 only, which the full blocks do not change. -/
theorem paddingTheTailEqualsPaddingTheMessage : Obligations.PaddingTheTailEqualsPaddingTheMessage := by
  refine ⟨fun m => ⟨?_, ?_⟩, fun s hle => ?_⟩
  · have htail : padding (m.drop (136 * (m.length / 136))).length = padding m.length :=
      padding_congr (by rw [List.length_drop]; omega)
    rw [pad_eq_append_padding, pad_eq_append_padding, htail, ← List.append_assoc, List.take_append_drop]
  · rw [pad_eq_append_padding, List.length_append, padding_length]
    omega
  · rw [exec_padblk, padBlock_of_le s hle, padTail_eq_append_padding hle, pad_eq_append_padding]

end Sys2Proof.Machine
end

