-- ==== Sys2Proof/Proofs/Effects.lean ====
section
/-! PROOFS. Said once, what an instruction and a host action can do: every next state is one of a few. From that, who
writes each field (10_state.md R28 and the access table of section 6), that every command has a step (42_engine.md R134),
and the state invariant (10_state.md R27, R31, R33). -/

namespace Sys2Proof.Machine

/-! ### What an instruction can do -/

/-- The effects of the instructions: `ExecEffect i s t` when `t` is what `i` makes of `s` by one of the rules. The
operations of the permutation core other than PERMUTE are one case, some function applied to the lanes. -/
inductive ExecEffect : Instr → State → State → Prop where
  | init (s : State) : ExecEffect .init s { s.clear with phase := .absorbing, digest := none, resp := respOk }
  | invalidState {i : Instr} {s : State} (hblock : i.block = .eng) (hne : i ≠ .init) (hp : s.phase = .finalized) :
      ExecEffect i s s.raiseInvalidState
  | updbBuffers {s : State} (b : Byte) (hp : s.phase = .absorbing) (h : s.blen < 135) :
      ExecEffect (.updb b) s { s with buf := s.buf ++ [b], resp := respOk }
  | updbAbsorbs {s : State} (b : Byte) (hp : s.phase = .absorbing) (h : s.blen = 135) :
      ExecEffect (.updb b) s (s.afterBlock (s.buf ++ [b])).respondOk
  | updz {s : State} (hp : s.phase = .absorbing) : ExecEffect .updz s s.respondOk
  | final {s : State} (hp : s.phase = .absorbing) (h : s.blen ≤ 135) :
      ExecEffect .final s { (s.afterBlock (padTail s.buf)).squeeze with phase := .finalized, resp := respOk }
  | clrst (s : State) : ExecEffect .clrst s s.clear
  | putb {s : State} (b : Byte) (h : s.blen ≤ 135) : ExecEffect (.putb b) s { s with buf := s.buf ++ [b] }
  | padblk {s : State} (h : s.blen ≤ 135) : ExecEffect .padblk s { s with buf := padTail s.buf }
  | absorb {s : State} (h : s.blen = 136) : ExecEffect .absorb s (s.afterBlock s.buf)
  | squeeze (s : State) : ExecEffect .squeeze s s.squeeze
  | permute (s : State) : ExecEffect .permute s s.permute
  | mapLanes {i : Instr} {s : State} (hblock : i.block = .prm) (hne : i ≠ .permute) (f : Lanes → Lanes) :
      ExecEffect i s (s.mapLanes f)

/-- UPDB while Absorbing stops where its PUTB stops (U4, log entry 10). -/
theorem exec_updb_of_gt {s : State} (hp : s.phase = .absorbing) (b : Byte) (h : 135 < s.blen) :
    exec (.updb b) s = .refused .putbBufferFull := by
  rw [exec_updb, execUpdb, whileAbsorbing_absorbing hp, putByte_of_gt b s h, andThen_refused]

/-- FINAL while Absorbing stops where its PADBLK stops (U4, log entry 10). -/
theorem exec_final_of_gt {s : State} (hp : s.phase = .absorbing) (h : 135 < s.blen) :
    exec .final s = .refused .padblkBufferFull := by
  rw [exec_final, execFinal, whileAbsorbing_absorbing hp, padBlock_of_gt s h, andThen_refused]

/-- A command of the engine has an effect, or it is refused for a buffer of more than 135 bytes (R134, U4). -/
theorem exec_of_block_eng {i : Instr} (hblock : i.block = .eng) (s : State) :
    (∃ t, exec i s = .next t ∧ ExecEffect i s t) ∨ (135 < s.blen ∧ ∃ why, exec i s = .refused why) := by
  by_cases hinit : i = .init
  · subst hinit
    exact .inl ⟨_, exec_init s, .init s⟩
  cases hp : s.phase with
  | finalized => exact .inl ⟨_, exec_of_finalized hblock hinit hp, .invalidState hblock hinit hp⟩
  | absorbing =>
    cases i with
    | init => exact absurd rfl hinit
    | updb b =>
      rcases lt_trichotomy s.blen 135 with hlt | heq | hgt
      · exact .inl ⟨_, exec_updb_of_lt hp b hlt, .updbBuffers b hp hlt⟩
      · exact .inl ⟨_, exec_updb_of_eq hp b heq, .updbAbsorbs b hp heq⟩
      · exact .inr ⟨hgt, _, exec_updb_of_gt hp b hgt⟩
    | updz => exact .inl ⟨_, exec_updz_of_absorbing hp, .updz hp⟩
    | final =>
      rcases Nat.lt_or_ge 135 s.blen with hgt | hle
      · exact .inr ⟨hgt, _, exec_final_of_gt hp hgt⟩
      · exact .inl ⟨_, exec_final_of_le hp hle, .final hp hle⟩
    | _ => cases hblock

theorem exists_execEffect_of_eng {i : Instr} {s : State} (hblock : i.block = .eng) (hle : s.blen ≤ 135) :
    ∃ t, exec i s = .next t ∧ ExecEffect i s t :=
  (exec_of_block_eng hblock s).resolve_right fun ⟨hgt, _⟩ => absurd hle (Nat.not_le.2 hgt)

theorem execEffect_of_eng {i : Instr} {s t : State} (hblock : i.block = .eng) (h : exec i s = .next t) :
    ExecEffect i s t := by
  rcases exec_of_block_eng hblock s with ⟨u, hu, heffect⟩ | ⟨-, why, hwhy⟩
  · cases hu.symm.trans h
    exact heffect
  · cases hwhy.symm.trans h

theorem execEffect_of_spg {i : Instr} {s t : State} (hblock : i.block = .spg) (h : exec i s = .next t) :
    ExecEffect i s t := by
  cases i with
  | clrst =>
    cases (exec_clrst s).symm.trans h
    exact .clrst s
  | putb b =>
    obtain ⟨hle, rfl⟩ := putByte_eq_next ((exec_putb b s).symm.trans h)
    exact .putb b hle
  | padblk =>
    obtain ⟨hle, rfl⟩ := padBlock_eq_next ((exec_padblk s).symm.trans h)
    exact .padblk hle
  | absorb =>
    obtain ⟨hfull, rfl⟩ := absorbBlock_eq_next ((exec_absorb s).symm.trans h)
    exact .absorb hfull
  | squeeze =>
    cases (exec_squeeze s).symm.trans h
    exact .squeeze s
  | _ => cases hblock

theorem execEffect_of_prm {i : Instr} {s t : State} (hblock : i.block = .prm) (h : exec i s = .next t) :
    ExecEffect i s t := by
  by_cases hpermute : i = .permute
  · subst hpermute
    cases (exec_permute s).symm.trans h
    exact .permute s
  rcases exec_of_block_prm hblock with rfl | ⟨f, hf⟩ | ⟨why, hwhy⟩
  · exact absurd rfl hpermute
  · cases (hf s).symm.trans h
    exact .mapLanes hblock hpermute f
  · cases (hwhy s).symm.trans h

/-- Every next state of an instruction is one of its effects. -/
theorem execEffect_of_exec {i : Instr} {s t : State} (h : exec i s = .next t) : ExecEffect i s t := by
  cases hblock : i.block with
  | eng => exact execEffect_of_eng hblock h
  | spg => exact execEffect_of_spg hblock h
  | prm => exact execEffect_of_prm hblock h

/-! ### Who writes each field -/

namespace ExecEffect
variable {i : Instr} {s t : State} (h : ExecEffect i s t)
include h

theorem pending_eq : t.pending = s.pending := by cases h <;> rfl

theorem hostRead_eq : t.hostRead = s.hostRead := by cases h <;> rfl

theorem lanes_eq : t.lanes = s.lanes ∨ i.block = .prm ∨ i ∈ [.init, .final, .clrst, .absorb] ∨
    (s.blen = 135 ∧ ∃ b, i = .updb b) := by
  cases h with
  | init | final | clrst | absorb => exact .inr (.inr (.inl (by decide)))
  | updbAbsorbs b _ h135 => exact .inr (.inr (.inr ⟨h135, b, rfl⟩))
  | permute => exact .inr (.inl rfl)
  | mapLanes hblock => exact .inr (.inl hblock)
  | _ => exact .inl rfl

theorem ri_eq : t.ri = s.ri ∨ i ∈ [.permute, .final, .absorb] ∨ (s.blen = 135 ∧ ∃ b, i = .updb b) := by
  cases h with
  | permute | final | absorb => exact .inr (.inl (by decide))
  | updbAbsorbs b _ h135 => exact .inr (.inr ⟨h135, b, rfl⟩)
  | _ => exact .inl rfl

theorem buf_eq : t.buf = s.buf ∨ i ∈ [.init, .final, .clrst, .padblk, .absorb] ∨
    (∃ b, i = .updb b) ∨ ∃ b, i = .putb b := by
  cases h with
  | init | final | clrst | padblk | absorb => exact .inr (.inl (by decide))
  | updbBuffers b | updbAbsorbs b => exact .inr (.inr (.inl ⟨b, rfl⟩))
  | putb b => exact .inr (.inr (.inr ⟨b, rfl⟩))
  | _ => exact .inl rfl

theorem digest_eq : t.digest = s.digest ∨ i ∈ [.init, .squeeze] ∨ (i = .final ∧ s.phase = .absorbing) := by
  cases h with
  | init | squeeze => exact .inr (.inl (by decide))
  | final hp => exact .inr (.inr ⟨rfl, hp⟩)
  | _ => exact .inl rfl

theorem phase_eq : t.phase = s.phase ∨ (i = .init ∧ t.phase = .absorbing) ∨
    (i = .final ∧ s.phase = .absorbing ∧ t.phase = .finalized ∧ t.resp = respOk) := by
  cases h with
  | init => exact .inr (.inl ⟨rfl, rfl⟩)
  | final hp => exact .inr (.inr ⟨rfl, hp, rfl, rfl⟩)
  | _ => exact .inl rfl

theorem resp_eq : t.resp = s.resp ∨ t.resp = respOk ∨ t.resp = respInvalidState := by
  cases h with
  | init | updbBuffers | updbAbsorbs | updz | final => exact .inr (.inl rfl)
  | invalidState => exact .inr (.inr rfl)
  | _ => exact .inl rfl

end ExecEffect

/-- Settles O38: of the effects only INIT's and FINAL's write the phase. -/
theorem onlyInitAndFinalChangeThePhase : Obligations.OnlyInitAndFinalChangeThePhase :=
  fun _ _ _ hexec hne => (execEffect_of_exec hexec).phase_eq.resolve_left hne

/-- Settles O39: field by field, the instructions that write it are not among those named. -/
theorem frameOfEveryInstruction : Obligations.FrameOfEveryInstruction := by
  intro i s t hexec
  have h := execEffect_of_exec hexec
  refine ⟨fun hi => h.lanes_eq.resolve_right ?_,
    fun b => ⟨fun hi => h.lanes_eq.resolve_right ?_,
      fun hi hne => ⟨h.lanes_eq.resolve_right ?_, h.ri_eq.resolve_right ?_⟩⟩,
    fun hi => h.buf_eq.resolve_right ?_, fun hi hne => h.ri_eq.resolve_right ?_, fun hi => h.ri_eq.resolve_right ?_,
    fun b hi => h.ri_eq.resolve_right ?_, fun hi => h.phase_eq.resolve_right ?_, fun hi => h.digest_eq.resolve_right ?_,
    fun hi hp => h.digest_eq.resolve_right ?_, h.pending_eq, h.hostRead_eq⟩
  · fin_cases hi <;> simp [Instr.block]
  · simp [hi, Instr.block]
  · simp [hi, hne, Instr.block]
  · simp [hi, hne]
  · rintro (hmem | ⟨b, rfl⟩ | ⟨b, rfl⟩)
    · fin_cases hmem <;> simp [Instr.block] at hi
    · simp [Instr.block] at hi
    · simp [Instr.block] at hi
  · rintro (hmem | ⟨-, b, rfl⟩)
    · fin_cases hmem <;> simp [Instr.block] at hi hne
    · simp [Instr.block] at hi
  · fin_cases hi <;> simp
  · simp [hi]
  · rintro (⟨rfl, -⟩ | ⟨rfl, -⟩) <;> simp [Instr.block] at hi
  · rintro (hmem | ⟨rfl, -⟩)
    · fin_cases hmem <;> simp at hi
    · simp at hi
  · simp [hi, hp]

/-! ### The buffer and `RI` -/

/-- A command of the engine leaves at most 135 bytes in the buffer (R27). -/
theorem ExecEffect.blen_le_of_eng {i : Instr} {s t : State} (h : ExecEffect i s t) (hblock : i.block = .eng)
    (hle : s.blen ≤ 135) : t.blen ≤ 135 := by
  cases h with
  | init | updbAbsorbs | final => exact Nat.zero_le _
  | invalidState | updz => exact hle
  | updbBuffers b _ hlt =>
    rw [State.blen, List.length_append, List.length_singleton, ← State.blen]
    omega
  | mapLanes hprm => cases hblock.symm.trans hprm
  | _ => cases hblock

/-- Settles O40: up to 135 buffered bytes PUTB and PADBLK have room; above that they have none. -/
theorem everyCommandHasAStep : Obligations.EveryCommandHasAStep := by
  refine ⟨fun i s hblock hle => ?_, fun s b hp hgt => ⟨exec_updb_of_gt hp b hgt, exec_final_of_gt hp hgt⟩⟩
  obtain ⟨t, hexec, heffect⟩ := exists_execEffect_of_eng hblock hle
  exact ⟨t, hexec, heffect.blen_le_of_eng hblock hle⟩

/-- No instruction leaves more than 136 bytes in the buffer. -/
theorem ExecEffect.blen_le {i : Instr} {s t : State} (h : ExecEffect i s t) (hle : s.blen ≤ 136) : t.blen ≤ 136 := by
  have happend (b : Byte) (h135 : s.blen ≤ 135) : (s.buf ++ [b]).length ≤ 136 := by
    rw [List.length_append, List.length_singleton, ← State.blen]
    omega
  cases h with
  | init | updbAbsorbs | final | clrst | absorb => exact Nat.zero_le _
  | invalidState | updz | squeeze | permute | mapLanes => exact hle
  | updbBuffers b _ hlt => exact happend b hlt.le
  | putb b h135 => exact happend b h135
  | padblk h135 => exact (padTail_length s.buf h135).le

/-- The loop of PERMUTE stops at 24. -/
theorem permuteLoop_ri_le (n : Nat) (A : Lanes) (ri : BitVec 5) (h : ri.toNat ≤ 24) :
    (permuteLoop n A ri).2.toNat ≤ 24 := by
  induction n generalizing A ri with
  | zero => exact h
  | succ n ih =>
    rw [permuteLoop]
    split
    case isTrue hlt => exact ih _ _ (by bv_omega)
    case isFalse => exact h

theorem permute_ri_le (s : State) : s.permute.ri.toNat ≤ 24 := permuteLoop_ri_le 24 s.lanes 0 (by decide)

theorem afterBlock_ri_le (P : List Byte) (s : State) : (s.afterBlock P).ri.toNat ≤ 24 :=
  permute_ri_le (s.mapLanes fun A => xorBlock A P)

theorem ExecEffect.ri_le {i : Instr} {s t : State} (h : ExecEffect i s t) (hle : s.ri.toNat ≤ 24) : t.ri.toNat ≤ 24 := by
  cases h with
  | updbAbsorbs b => exact afterBlock_ri_le (s.buf ++ [b]) s
  | final => exact afterBlock_ri_le (padTail s.buf) s
  | absorb => exact afterBlock_ri_le s.buf s
  | permute => exact permute_ri_le s
  | _ => exact hle

/-! ### What a host action can do -/

/-- The reads of the three registers (R56). -/
def HostAction.isRead : HostAction → Bool
  | .readStatus | .readResp | .readDigest | .readDigestBytes _ => true
  | .reset | .resetDuring _ | .word _ _ => false

/-- The effects of the host's actions: `ActionEffect a s t` when `t` is what taking `a` makes of `s` (R180). -/
inductive ActionEffect : HostAction → State → State → Prop where
  | reset (s : State) : ActionEffect .reset s s.assertReset
  | resetDuring (w : CmdWord) (s : State) : ActionEffect (.resetDuring w) s s.assertReset
  | word {p : Port} {w : CmdWord} {i : Instr} {s t : State} (hdecode : decodeAt p w = .ok i) (hexec : exec i s = .next t) :
      ActionEffect (.word p w) s t
  | read {a : HostAction} (hread : a.isRead = true) (bytes : List Byte) (s : State) : ActionEffect a s (s.handBack bytes)

/-- Every next state of a host action is one of its effects. -/
theorem actionEffect_of_takeAction {a : HostAction} {s t : State} (h : takeAction a s = .next t) : ActionEffect a s t := by
  cases a with
  | reset =>
    cases h
    exact .reset s
  | resetDuring w =>
    rw [takeAction] at h
    split at h
    · cases h
      exact .resetDuring w s
    · cases h
  | word p w =>
    cases hdecode : decodeAt p w with
    | ok i => exact .word hdecode ((takeAction_word_of_ok hdecode s).symm.trans h)
    | error why => cases (takeAction_word_of_error hdecode s).symm.trans h
  | readStatus | readResp =>
    cases h
    exact .read rfl _ s
  | readDigest | readDigestBytes =>
    obtain ⟨d, -, -, rfl⟩ := readFromDigest_eq_next h
    exact .read rfl _ s

/-- Every next state of a step: the engine waits, or takes the next action. -/
theorem step_eq_next {s t : State} (h : step s = .next t) :
    (s.pending = [] ∧ t = s) ∨ ∃ a rest, s.pending = a :: rest ∧ ActionEffect a { s with pending := rest } t := by
  cases hpending : s.pending with
  | nil =>
    cases (step_of_pending_nil hpending).symm.trans h
    exact .inl ⟨rfl, rfl⟩
  | cons a rest =>
    exact .inr ⟨a, rest, rfl, actionEffect_of_takeAction ((step_of_pending_cons hpending).symm.trans h)⟩

/-- No action touches the actions that come after it (R57, R61). -/
theorem ActionEffect.pending_eq {a : HostAction} {s t : State} (h : ActionEffect a s t) : t.pending = s.pending := by
  cases h with
  | reset | resetDuring | read => rfl
  | word _ hexec => exact (execEffect_of_exec hexec).pending_eq

/-! ### The state invariant -/

theorem stateWf_reset : StateWf State.reset := ⟨by decide, by decide, .inl rfl⟩

theorem StateWf.exec {i : Instr} {s t : State} (hwf : StateWf s) (hexec : exec i s = .next t) : StateWf t where
  blen_le := (execEffect_of_exec hexec).blen_le hwf.blen_le
  ri_le := (execEffect_of_exec hexec).ri_le hwf.ri_le
  resp_eq := (execEffect_of_exec hexec).resp_eq.elim (fun hresp => hresp ▸ hwf.resp_eq) id

/-- The invariant speaks of fields that neither reads nor the pending list touch. -/
theorem StateWf.of_eq {s t : State} (hwf : StateWf s) (hbuf : t.buf = s.buf) (hri : t.ri = s.ri) (hresp : t.resp = s.resp) :
    StateWf t where
  blen_le := by rw [State.blen, hbuf]; exact hwf.blen_le
  ri_le := hri ▸ hwf.ri_le
  resp_eq := hresp ▸ hwf.resp_eq

theorem StateWf.actionEffect {a : HostAction} {s t : State} (hwf : StateWf s) (h : ActionEffect a s t) : StateWf t := by
  cases h with
  | reset | resetDuring => exact stateWf_reset.of_eq rfl rfl rfl
  | word _ hexec => exact hwf.exec hexec
  | read => exact hwf.of_eq rfl rfl rfl

/-- Settles O42: waiting keeps the invariant, and so does every effect of an action. -/
theorem everyStepKeepsTheStateInvariant : Obligations.EveryStepKeepsTheStateInvariant := by
  intro s t hwf hstep
  rcases step_eq_next hstep with ⟨-, rfl⟩ | ⟨a, rest, -, heffect⟩
  · exact hwf
  · exact (hwf.of_eq rfl rfl rfl : StateWf { s with pending := rest }).actionEffect heffect

/-! ### Legal streams -/

/-- The actions that never stop the engine: resets, reads of STATUS and RESP, and legal command words. -/
def HostAction.Legal (a : HostAction) : Prop :=
  a = .reset ∨ a = .readStatus ∨ a = .readResp ∨ ∃ w ∈ legalExternalWords, a = .word .cmd w

/-- From a state between commands a legal action leads to a state between commands. -/
theorem takeAction_of_legal {a : HostAction} {s : State} (ha : a.Legal) (hle : s.blen ≤ 135) :
    ∃ t, takeAction a s = .next t ∧ t.blen ≤ 135 := by
  rcases ha with rfl | rfl | rfl | ⟨w, hw, rfl⟩
  · exact ⟨_, rfl, Nat.zero_le _⟩
  · exact ⟨_, rfl, hle⟩
  · exact ⟨_, rfl, hle⟩
  · obtain ⟨i, hdecode⟩ := exists_decodeAt_cmd_ok_iff.2 hw
    have hblock : i.block = .eng := (decodeAt_eq_ok_iff.1 hdecode).2
    obtain ⟨t, hexec, heffect⟩ := exists_execEffect_of_eng hblock hle
    exact ⟨t, (takeAction_word_of_ok hdecode s).trans hexec, heffect.blen_le_of_eng hblock hle⟩

/-- The engine is between two commands and only legal actions are to come. -/
structure LegalStream (s : State) : Prop where
  blen_le : s.blen ≤ 135
  legal   : ∀ a ∈ s.pending, a.Legal

theorem LegalStream.step {s : State} (h : LegalStream s) : ∃ t, step s = .next t ∧ LegalStream t := by
  obtain ⟨hle, hlegal⟩ := h
  cases hpending : s.pending with
  | nil => exact ⟨s, step_of_pending_nil hpending, hle, hlegal⟩
  | cons a rest =>
    rw [hpending] at hlegal
    obtain ⟨ha, hrest⟩ := List.forall_mem_cons.1 hlegal
    obtain ⟨t, ht, hlet⟩ := takeAction_of_legal (s := { s with pending := rest }) ha hle
    have hpendingt : t.pending = rest := (actionEffect_of_takeAction ht).pending_eq
    exact ⟨t, (step_of_pending_cons hpending).trans ht, hlet, hpendingt ▸ hrest⟩

theorem LegalStream.runsOn {s : State} (h : LegalStream s) (n : Nat) : RunsOn n s := by
  induction n generalizing s with
  | zero => exact ⟨s, rfl⟩
  | succ n ih =>
    obtain ⟨t, hstep, ht⟩ := h.step
    obtain ⟨u, hrun⟩ := ih ht
    refine ⟨u, ?_⟩
    rw [run, hstep, andThen_next, hrun]

/-- Settles O44: every step of a legal stream leaves a legal stream. -/
theorem legalStreamsNeverStop : Obligations.LegalStreamsNeverStop :=
  fun _ hle hlegal n => LegalStream.runsOn ⟨hle, hlegal⟩ n

end Sys2Proof.Machine
end

