-- ==== Sys2Proof/Proofs/Delivery.lean ====
section
/-! PROOFS. The engine invariant for the message delivered (10_state.md R41) along every external action, and that how a
message is cut into chunks does not matter (42_engine.md R133). -/

namespace Sys2Proof.Machine

/-! ### Chunks -/

theorem deliveredBytes_append (is js : List Instr) :
    deliveredBytes (is ++ js) = deliveredBytes is ++ deliveredBytes js :=
  List.filterMap_append

/-- UPDATE chunk by chunk delivers the chunks one after the other. -/
theorem deliveredBytes_flatMap_updateInstrs (chunks : List (List Byte)) :
    deliveredBytes (chunks.flatMap updateInstrs) = chunks.flatten := by
  induction chunks with
  | nil => rfl
  | cons c cs ih =>
    rw [List.flatMap_cons, deliveredBytes_append, deliveredBytes_updateInstrs, ih, List.flatten_cons]

/-- INIT, any stream of UPDZ and UPDB commands, and FINAL leave the digest of the bytes delivered. -/
theorem digest_of_stream (s : State) {is : List Instr} (hupd : ∀ i ∈ is, i = .updz ∨ ∃ b, i = .updb b) :
    ∃ t, issueAll (.init :: is ++ [.final]) s = .next t ∧ t.digest = some (keccak256 (deliveredBytes is)) ∧
      t.phase = .finalized := by
  obtain ⟨t, hissue, ht⟩ := issueAll_init_updates_final s is hupd
  exact ⟨t, hissue, ht.inv.digest_eq ht.phase_eq, ht.phase_eq⟩

/-- Settles O46: only the bytes delivered count, and chunks deliver their concatenation. -/
theorem everyChunkingGivesTheSameDigest : Obligations.EveryChunkingGivesTheSameDigest := by
  refine ⟨fun s is m hupd hm => ?_, fun s chunks => ?_⟩
  · subst hm
    exact digest_of_stream s hupd
  · rw [← deliveredBytes_flatMap_updateInstrs]
    refine digest_of_stream s fun i hi => ?_
    obtain ⟨c, -, hc⟩ := List.mem_flatMap.1 hi
    exact mem_updateInstrs hc

/-! ### The engine invariant along one command -/

/-- The invariant speaks of the lanes, the buffer, the phase and the digest. -/
theorem EngineInv.of_eq {s t : State} {m : List Byte} (h : EngineInv s m) (hlanes : t.lanes = s.lanes)
    (hbuf : t.buf = s.buf) (hphase : t.phase = s.phase) (hdigest : t.digest = s.digest) : EngineInv t m := by
  cases s
  cases t
  subst hlanes hbuf hphase hdigest
  exact ⟨h.blen_le, h.digest_iff, h.blen_eq, h.buf_eq, h.lanes_eq, h.digest_eq⟩

theorem engineInv_reset : EngineInv State.reset [] :=
  engineInv_of_absorbing rfl rfl rfl zeroLanes_eq_replicate.symm

/-- Settles O41: the values after reset are within the bounds, and nothing has been delivered or absorbed. -/
theorem resetMeetsTheInvariants : Obligations.ResetMeetsTheInvariants :=
  ⟨stateWf_reset, engineInv_reset⟩

/-- No command while Absorbing reads the last response: the one before it may as well have been OK. -/
theorem exec_respondOk {i : Instr} {s : State} (hblock : i.block = .eng) (hp : s.phase = .absorbing)
    (hle : s.blen ≤ 135) : exec i s.respondOk = exec i s := by
  have hpOk : s.respondOk.phase = .absorbing := hp
  cases i with
  | init => rfl
  | updb b =>
    rcases Nat.lt_or_eq_of_le hle with hlt | heq
    · rw [exec_updb_of_lt hp b hlt, exec_updb_of_lt hpOk b hlt]
      rfl
    · rw [exec_updb_of_eq hp b heq, exec_updb_of_eq hpOk b heq]
      rfl
  | updz =>
    rw [exec_updz_of_absorbing hp, exec_updz_of_absorbing hpOk]
    rfl
  | final =>
    rw [exec_final_of_le hp hle, exec_final_of_le hpOk hle]
    rfl
  | _ => cases hblock

theorem EngineInv.reachesOk {s : State} {m : List Byte} (h : EngineInv s m) (hp : s.phase = .absorbing) :
    ReachesOk s s.respondOk .absorbing m :=
  ⟨h.of_eq rfl rfl rfl rfl, hp, rfl, rfl⟩

/-- A command that is rejected while Finalized delivers nothing (R127, R152). -/
theorem messageAfterCommand_finalized {i : Instr} (hblock : i.block = .eng) (hne : i ≠ .init) (m : List Byte) :
    messageAfterCommand i .finalized m = m := by
  cases i with
  | init => exact absurd rfl hne
  | updb | updz | final => rfl
  | _ => cases hblock

/-- While Absorbing a command leads to a state that meets the invariant for the message with its byte, if it has one. -/
theorem ReachesOk.exec_eng {s₀ s : State} {m : List Byte} (h : ReachesOk s₀ s .absorbing m) {i : Instr}
    (hblock : i.block = .eng) : ∃ t, exec i s = .next t ∧ EngineInv t (messageAfterCommand i .absorbing m) := by
  cases i with
  | init =>
    obtain ⟨t, ht, hreach⟩ := exec_init_reachesOk s
    exact ⟨t, ht, hreach.inv⟩
  | updb b =>
    obtain ⟨t, ht, hreach⟩ := h.exec_updb b
    exact ⟨t, ht, hreach.inv⟩
  | updz =>
    obtain ⟨t, ht, hreach⟩ := h.exec_updz
    exact ⟨t, ht, hreach.inv⟩
  | final =>
    obtain ⟨t, ht, hreach⟩ := h.exec_final
    exact ⟨t, ht, hreach.inv⟩
  | _ => cases hblock

/-- Every command of the engine keeps the invariant. -/
theorem EngineInv.exec {i : Instr} {s t : State} {m : List Byte} (h : EngineInv s m) (hblock : i.block = .eng)
    (hexec : exec i s = .next t) : EngineInv t (messageAfterCommand i s.phase m) := by
  by_cases hinit : i = .init
  · subst hinit
    obtain ⟨u, hu, hreach⟩ := exec_init_reachesOk s
    cases hu.symm.trans hexec
    exact hreach.inv
  cases hp : s.phase with
  | finalized =>
    cases (exec_of_finalized hblock hinit hp).symm.trans hexec
    rw [messageAfterCommand_finalized hblock hinit]
    exact h.of_eq rfl rfl rfl rfl
  | absorbing =>
    obtain ⟨u, hu, hinv⟩ := (h.reachesOk hp).exec_eng hblock
    cases ((exec_respondOk hblock hp h.blen_le).symm.trans hu).symm.trans hexec
    exact hinv

/-! ### The engine invariant along one host action -/

theorem messageAfter_word {w : CmdWord} {i : Instr} (h : decodeAt .cmd w = .ok i) (phase : Phase) (m : List Byte) :
    messageAfter (.word .cmd w) phase m = messageAfterCommand i phase m := by
  rw [messageAfter, HostAction.command, h, Except.toOption]

/-- A read delivers nothing. -/
theorem messageAfter_of_isRead {a : HostAction} (h : a.isRead = true) (phase : Phase) (m : List Byte) :
    messageAfter a phase m = m := by
  cases a with
  | readStatus | readResp | readDigest | readDigestBytes => rfl
  | _ => cases h

theorem EngineInv.actionEffect {a : HostAction} {s t : State} {m : List Byte} (h : EngineInv s m)
    (hext : a.external = true) (heffect : ActionEffect a s t) : EngineInv t (messageAfter a s.phase m) := by
  cases heffect with
  | reset | resetDuring => exact engineInv_reset.of_eq rfl rfl rfl rfl
  | @word p w i s t hdecode hexec =>
    obtain rfl : p = .cmd := eq_of_beq hext
    rw [messageAfter_word hdecode]
    exact h.exec (decodeAt_eq_ok_iff.1 hdecode).2 hexec
  | read hread =>
    rw [messageAfter_of_isRead hread]
    exact h.of_eq rfl rfl rfl rfl

/-- Settles O43: a step on an action takes it off the list, and every effect of an external action keeps the invariant. -/
theorem everyStepKeepsTheEngineInvariant : Obligations.EveryStepKeepsTheEngineInvariant := by
  intro s t m a rest hinv hpending hext hstep
  have heffect := actionEffect_of_takeAction ((step_of_pending_cons hpending).symm.trans hstep)
  have hinv' : EngineInv { s with pending := rest } m := hinv.of_eq rfl rfl rfl rfl
  exact ⟨hinv'.actionEffect hext heffect, heffect.pending_eq⟩

end Sys2Proof.Machine
end

