-- ==== Sys2Proof/Proofs/History.lean ====
section
/-! PROOFS. INIT or reset makes the history irrelevant (42_engine.md R135): the round index and the bytes of the last host
read are the only fields that outlive INIT, and no step reads either, so two runs that differ in these fields alone go the
same way. -/

namespace Sys2Proof.Machine

/-! ### States and answers that differ in scratch only -/

/-- `s` with other scratch of PERMUTE and other bytes that the last host read handed back. -/
def State.withScratch (ri : BitVec 5) (bytes : List Byte) (s : State) : State := { s with ri := ri, hostRead := bytes }

section
variable (ri : BitVec 5) (bytes : List Byte) (s : State)

@[simp] theorem State.withScratch_blen : (s.withScratch ri bytes).blen = s.blen := rfl
@[simp] theorem State.withScratch_phase : (s.withScratch ri bytes).phase = s.phase := rfl
@[simp] theorem State.withScratch_digest : (s.withScratch ri bytes).digest = s.digest := rfl
@[simp] theorem State.withScratch_pending : (s.withScratch ri bytes).pending = s.pending := rfl

end

/-- The two states differ in these two fields at most. -/
def SameButScratch (s t : State) : Prop := ∃ ri bytes, t = s.withScratch ri bytes

/-- Two answers are refusals for one reason, or next states that differ in scratch only. -/
inductive SameAnswer : Result → Result → Prop where
  | next {s t : State} (h : SameButScratch s t) : SameAnswer (.next s) (.next t)
  | refused (r : Refusal) : SameAnswer (.refused r) (.refused r)

/-- Operations that do not tell such states apart compose to operations that do not. -/
theorem SameAnswer.andThen {o o' : Result} {f f' : State → Result} (h : SameAnswer o o')
    (hf : ∀ s t, SameButScratch s t → SameAnswer (f s) (f' t)) : SameAnswer (andThen o f) (andThen o' f') := by
  cases h with
  | next h => exact hf _ _ h
  | refused r => exact .refused r

/-! ### What an instruction does not read -/

section
variable {s t : State} (h : SameButScratch s t)
include h

theorem SameButScratch.whileAbsorbing {f f' : State → Result} (hf : SameAnswer (f s) (f' t)) :
    SameAnswer (whileAbsorbing s f) (whileAbsorbing t f') := by
  obtain ⟨ri, bytes, rfl⟩ := h
  cases hp : s.phase with
  | absorbing =>
    rw [whileAbsorbing_absorbing hp, whileAbsorbing_absorbing (s := s.withScratch ri bytes) hp]
    exact hf
  | finalized =>
    rw [whileAbsorbing_finalized hp, whileAbsorbing_finalized (s := s.withScratch ri bytes) hp]
    exact .next ⟨ri, bytes, rfl⟩

theorem SameButScratch.putByte (b : Byte) : SameAnswer (s.putByte b) (t.putByte b) := by
  obtain ⟨ri, bytes, rfl⟩ := h
  rcases Nat.lt_or_ge 135 s.blen with hgt | hle
  · rw [putByte_of_gt b s hgt, putByte_of_gt b (s.withScratch ri bytes) hgt]
    exact .refused _
  · rw [putByte_of_le b s hle, putByte_of_le b (s.withScratch ri bytes) hle]
    exact .next ⟨ri, bytes, rfl⟩

theorem SameButScratch.padBlock : SameAnswer s.padBlock t.padBlock := by
  obtain ⟨ri, bytes, rfl⟩ := h
  rcases Nat.lt_or_ge 135 s.blen with hgt | hle
  · rw [padBlock_of_gt s hgt, padBlock_of_gt (s.withScratch ri bytes) hgt]
    exact .refused _
  · rw [padBlock_of_le s hle, padBlock_of_le (s.withScratch ri bytes) hle]
    exact .next ⟨ri, bytes, rfl⟩

theorem SameButScratch.absorbBlock : SameAnswer s.absorbBlock t.absorbBlock := by
  obtain ⟨ri, bytes, rfl⟩ := h
  by_cases hfull : s.blen = 136
  · rw [absorbBlock_of_eq s hfull, absorbBlock_of_eq (s.withScratch ri bytes) hfull]
    exact .next ⟨_, bytes, rfl⟩
  · rw [absorbBlock_of_ne s hfull, absorbBlock_of_ne (s.withScratch ri bytes) hfull]
    exact .refused _

theorem SameButScratch.absorbIfFull : SameAnswer (absorbIfFull s) (absorbIfFull t) := by
  have hblen : t.blen = s.blen := by
    obtain ⟨ri, bytes, rfl⟩ := h
    exact State.withScratch_blen ri bytes s
  by_cases hfull : s.blen = 136
  · rw [absorbIfFull_of_eq s hfull, absorbIfFull_of_eq t (hblen.trans hfull)]
    exact h.absorbBlock
  · rw [absorbIfFull_of_ne s hfull, absorbIfFull_of_ne t (hblen.trans_ne hfull)]
    exact .next h

/-- No instruction reads the scratch: PERMUTE sets `RI` before its loop (R100). -/
theorem SameButScratch.exec (i : Instr) : SameAnswer (exec i s) (exec i t) := by
  cases hblock : i.block with
  | eng =>
    cases i with
    | init =>
      obtain ⟨ri, bytes, rfl⟩ := h
      exact .next ⟨ri, bytes, rfl⟩
    | updb b =>
      rw [exec_updb, exec_updb, execUpdb, execUpdb]
      refine h.whileAbsorbing ((h.putByte b).andThen fun _ _ h => h.absorbIfFull.andThen fun _ _ h => ?_)
      obtain ⟨ri, bytes, rfl⟩ := h
      exact .next ⟨ri, bytes, rfl⟩
    | updz =>
      rw [exec_updz, exec_updz, execUpdz, execUpdz]
      refine h.whileAbsorbing ?_
      obtain ⟨ri, bytes, rfl⟩ := h
      exact .next ⟨ri, bytes, rfl⟩
    | final =>
      rw [exec_final, exec_final, execFinal, execFinal]
      refine h.whileAbsorbing (h.padBlock.andThen fun _ _ h => h.absorbBlock.andThen fun _ _ h => ?_)
      obtain ⟨ri, bytes, rfl⟩ := h
      exact .next ⟨ri, bytes, rfl⟩
    | _ => cases hblock
  | spg =>
    cases i with
    | putb b => exact h.putByte b
    | padblk => exact h.padBlock
    | absorb => exact h.absorbBlock
    | clrst | squeeze =>
      obtain ⟨ri, bytes, rfl⟩ := h
      exact .next ⟨ri, bytes, rfl⟩
    | _ => cases hblock
  | prm =>
    obtain ⟨ri, bytes, rfl⟩ := h
    rcases exec_of_block_prm hblock with rfl | ⟨f, hf⟩ | ⟨why, hwhy⟩
    · exact .next ⟨_, bytes, rfl⟩
    · rw [hf, hf]
      exact .next ⟨ri, bytes, rfl⟩
    · rw [hwhy, hwhy]
      exact .refused why

/-! ### What a host action does not read -/

theorem SameButScratch.handBack (bytes : List Byte) : SameButScratch (s.handBack bytes) (t.handBack bytes) := by
  obtain ⟨ri, old, rfl⟩ := h
  exact ⟨ri, bytes, rfl⟩

theorem SameButScratch.assertReset : SameButScratch s.assertReset t.assertReset := by
  obtain ⟨ri, bytes, rfl⟩ := h
  exact ⟨0, [], rfl⟩

theorem SameButScratch.readFromDigest (bytes : DigestBytes → List Byte) :
    SameAnswer (s.readFromDigest bytes) (t.readFromDigest bytes) := by
  obtain ⟨ri, old, rfl⟩ := h
  rw [State.readFromDigest, State.readFromDigest, State.withScratch_phase, State.withScratch_digest]
  split
  · exact .next ⟨ri, _, rfl⟩
  · exact .refused _
  · exact .refused _

theorem SameButScratch.takeAction (a : HostAction) : SameAnswer (takeAction a s) (takeAction a t) := by
  cases a with
  | reset => exact .next h.assertReset
  | resetDuring w =>
    rw [Machine.takeAction, Machine.takeAction]
    split
    · exact .next h.assertReset
    · exact .refused _
  | word p w =>
    cases hdecode : decodeAt p w with
    | ok i =>
      rw [takeAction_word_of_ok hdecode, takeAction_word_of_ok hdecode]
      exact h.exec i
    | error why =>
      rw [takeAction_word_of_error hdecode, takeAction_word_of_error hdecode]
      exact .refused _
  | readStatus | readResp =>
    obtain ⟨ri, bytes, rfl⟩ := h
    exact .next ⟨ri, _, rfl⟩
  | readDigest => exact h.readFromDigest _
  | readDigestBytes ks => exact h.readFromDigest _

/-! ### Runs -/

theorem SameButScratch.step : SameAnswer (step s) (step t) := by
  have hpendingt : t.pending = s.pending := by
    obtain ⟨ri, bytes, rfl⟩ := h
    exact State.withScratch_pending ri bytes s
  cases hpending : s.pending with
  | nil =>
    rw [step_of_pending_nil hpending, step_of_pending_nil (hpendingt.trans hpending)]
    exact .next h
  | cons a rest =>
    rw [step_of_pending_cons hpending, step_of_pending_cons (hpendingt.trans hpending)]
    refine SameButScratch.takeAction ?_ a
    obtain ⟨ri, bytes, rfl⟩ := h
    exact ⟨ri, bytes, rfl⟩

theorem SameButScratch.run (n : Nat) : SameAnswer (run n s) (run n t) := by
  induction n generalizing s t with
  | zero => exact .next h
  | succ n ih => exact h.step.andThen fun _ _ h' => ih h'

end

/-- From any two states, INIT or reset leaves states that differ in scratch only. -/
theorem step_init_or_reset_sameAnswer (s u : State) {a : HostAction} (as : List HostAction)
    (ha : a = .reset ∨ a = .word .cmd (encode .init)) :
    SameAnswer (step { s with pending := a :: as }) (step { u with pending := a :: as }) := by
  rw [step_of_pending_cons rfl, step_of_pending_cons rfl]
  rcases ha with rfl | rfl
  · exact .next ⟨0, [], rfl⟩
  · rw [takeAction_encode rfl, takeAction_encode rfl, exec_init, exec_init]
    exact .next ⟨u.ri, u.hostRead, rfl⟩

/-- Settles O47: after the first action the two runs differ in scratch only, which is neither read nor visible. -/
theorem initForgetsTheHistory : Obligations.InitForgetsTheHistory := by
  intro s u a as n ha
  have hrun : SameAnswer (run (n + 1) { s with pending := a :: as }) (run (n + 1) { u with pending := a :: as }) :=
    (step_init_or_reset_sameAnswer s u as ha).andThen fun _ _ h => h.run n
  generalize run (n + 1) { s with pending := a :: as } = o at hrun
  generalize run (n + 1) { u with pending := a :: as } = o' at hrun
  cases hrun with
  | @next t v h =>
    obtain ⟨ri, bytes, rfl⟩ := h
    exact .inl ⟨t, _, rfl, rfl, rfl, rfl, rfl, rfl⟩
  | refused r => exact .inr ⟨r, rfl, rfl⟩

end Sys2Proof.Machine
end
